-- ==== Sys2Proof/Word.lean ====
section
/-!
DEFINITION. The word types of the machine and nothing else (spec 00_scope.md R6, R8: every value is unsigned).
-/

namespace Sys2Proof

/-- One byte: a `V` register, a timer, a memory byte, the immediate `kk` (R6, REG_W and TIMER_W). -/
abbrev Byte := BitVec 8

/-- One 16-bit word: an opcode, `pc`, `I`, a stack slot (R6, PC_W, I_W and INSN_W). -/
abbrev Word := BitVec 16

/-- The number of a `V` register, 0 to 15 (R23, R72). -/
abbrev Reg := Fin 16

end Sys2Proof
end

