-- ==== Sys2Proof/Syntax.lean ====
section
/-!
DEFINITION. The instructions: one constructor per row of spec/opcode_table.json, in the table's order (30_encoding.md R75,
R77). Operands are the fields of R72: `x` and `y` register numbers, `kk` a byte, `nnn` a 12-bit address, `n` a height.
-/

namespace Sys2Proof

/-- The 34 instructions of R75 and the no-op of R77. Each constructor's comment gives its canonical pattern and rule. -/
inductive Instr where
  /-- 00E0, CLS (R170) -/
  | cls
  /-- 00EE, RET (R111) -/
  | ret
  /-- 1nnn, JP nnn (R112) -/
  | jp (nnn : BitVec 12)
  /-- 2nnn, CALL nnn (R113) -/
  | call (nnn : BitVec 12)
  /-- 3xkk, SE Vx, kk (R114) -/
  | seImm (x : Reg) (kk : Byte)
  /-- 4xkk, SNE Vx, kk (R115) -/
  | sneImm (x : Reg) (kk : Byte)
  /-- 5xy0, SE Vx, Vy (R116) -/
  | seReg (x y : Reg)
  /-- 6xkk, LD Vx, kk (R130) -/
  | ldImm (x : Reg) (kk : Byte)
  /-- 7xkk, ADD Vx, kk (R131) -/
  | addImm (x : Reg) (kk : Byte)
  /-- 8xy0, LD Vx, Vy (R132) -/
  | ldReg (x y : Reg)
  /-- 8xy1, OR Vx, Vy (R133) -/
  | orReg (x y : Reg)
  /-- 8xy2, AND Vx, Vy (R134) -/
  | andReg (x y : Reg)
  /-- 8xy3, XOR Vx, Vy (R135) -/
  | xorReg (x y : Reg)
  /-- 8xy4, ADD Vx, Vy (R136) -/
  | addReg (x y : Reg)
  /-- 8xy5, SUB Vx, Vy (R137) -/
  | subReg (x y : Reg)
  /-- 8xy6, SHR Vx (R138); the field y is ignored -/
  | shr (x : Reg)
  /-- 8xy7, SUBN Vx, Vy (R139) -/
  | subnReg (x y : Reg)
  /-- 8xyE, SHL Vx (R140); the field y is ignored -/
  | shl (x : Reg)
  /-- 9xy0, SNE Vx, Vy (R117) -/
  | sneReg (x y : Reg)
  /-- Annn, LD I, nnn (R150) -/
  | ldI (nnn : BitVec 12)
  /-- Bnnn, JP V0, nnn (R118) -/
  | jpV0 (nnn : BitVec 12)
  /-- Cxkk, RND Vx, kk (R142) -/
  | rnd (x : Reg) (kk : Byte)
  /-- Dxyn, DRW Vx, Vy, n (R172) -/
  | drw (x y : Reg) (n : Fin 16)
  /-- Ex9E, SKP Vx (R190) -/
  | skp (x : Reg)
  /-- ExA1, SKNP Vx (R191) -/
  | sknp (x : Reg)
  /-- Fx07, LD Vx, DT (R193) -/
  | ldVxDT (x : Reg)
  /-- Fx0A, LD Vx, K (R192) -/
  | ldVxK (x : Reg)
  /-- Fx15, LD DT, Vx (R194) -/
  | ldDTVx (x : Reg)
  /-- Fx18, LD ST, Vx (R195) -/
  | ldSTVx (x : Reg)
  /-- Fx1E, ADD I, Vx (R151) -/
  | addIVx (x : Reg)
  /-- Fx29, LD F, Vx (R152) -/
  | ldFVx (x : Reg)
  /-- Fx33, LD B, Vx (R153) -/
  | ldBVx (x : Reg)
  /-- Fx55, LD [I], Vx (R154): stores V0 to Vx -/
  | ldMemVx (x : Reg)
  /-- Fx65, LD Vx, [I] (R155): loads V0 to Vx -/
  | ldVxMem (x : Reg)
  /-- the default row: a word `w` that selects no other row (R77, R96); the handler ignores `w` -/
  | nop (w : Word)
  deriving DecidableEq, Repr

end Sys2Proof
end

