-- ==== Sys2Proof/Decode.lean ====
section
/-!
DEFINITION. The decoder, total on every word (30_encoding.md R72 to R79), the encoder (R75, R80), the opcode table's masks
and matches (R75), and the no-op words (R77).
-/

namespace Sys2Proof

/-! ## The fields of R72 -/

/-- The nibble of `w` whose lowest bit is bit `lo`. -/
def nibble (w : Word) (lo : Nat) : BitVec 4 := w.extractLsb' lo 4

/-- `op[15:12]`, the family (R71). -/
def family (w : Word) : BitVec 4 := nibble w 12

/-- `x = op[11:8]` (R72). -/
def fieldX (w : Word) : Reg := (nibble w 8).toFin

/-- `y = op[7:4]` (R72). -/
def fieldY (w : Word) : Reg := (nibble w 4).toFin

/-- `n = op[3:0]` (R72). -/
def fieldN (w : Word) : Fin 16 := (nibble w 0).toFin

/-- `kk = op[7:0]` (R72). -/
def fieldKK (w : Word) : Byte := w.extractLsb' 0 8

/-- `nnn = op[11:0]` (R72). -/
def fieldNNN (w : Word) : BitVec 12 := w.extractLsb' 0 12

/-! ## The dispatch tables of R73 and R74 -/

/-- The second-level table of family 0, keyed on the low nibble (R74). -/
def decodeFamily0 (w : Word) : Instr :=
  match (nibble w 0).toNat with
  | 0x0 => .cls
  | 0xE => .ret
  | _ => .nop w

/-- The second-level table of family 8, keyed on the low nibble (R74). -/
def decodeFamily8 (w : Word) : Instr :=
  match (nibble w 0).toNat with
  | 0x0 => .ldReg (fieldX w) (fieldY w)
  | 0x1 => .orReg (fieldX w) (fieldY w)
  | 0x2 => .andReg (fieldX w) (fieldY w)
  | 0x3 => .xorReg (fieldX w) (fieldY w)
  | 0x4 => .addReg (fieldX w) (fieldY w)
  | 0x5 => .subReg (fieldX w) (fieldY w)
  | 0x6 => .shr (fieldX w)
  | 0x7 => .subnReg (fieldX w) (fieldY w)
  | 0xE => .shl (fieldX w)
  | _ => .nop w

/-- The second-level table of family E, keyed on the low nibble (R74). -/
def decodeFamilyE (w : Word) : Instr :=
  match (nibble w 0).toNat with
  | 0x1 => .sknp (fieldX w)
  | 0xE => .skp (fieldX w)
  | _ => .nop w

/-- The second-level table of family F, keyed on the low byte (R74). -/
def decodeFamilyF (w : Word) : Instr :=
  match (fieldKK w).toNat with
  | 0x07 => .ldVxDT (fieldX w)
  | 0x0A => .ldVxK (fieldX w)
  | 0x15 => .ldDTVx (fieldX w)
  | 0x18 => .ldSTVx (fieldX w)
  | 0x1E => .addIVx (fieldX w)
  | 0x29 => .ldFVx (fieldX w)
  | 0x33 => .ldBVx (fieldX w)
  | 0x55 => .ldMemVx (fieldX w)
  | 0x65 => .ldVxMem (fieldX w)
  | _ => .nop w

/-- The decoder of R79: the first-level table on `op[15:12]` (R73), then the second level. It cannot fail. -/
def decodeWord (w : Word) : Instr :=
  match (family w).toNat with
  | 0x0 => decodeFamily0 w
  | 0x1 => .jp (fieldNNN w)
  | 0x2 => .call (fieldNNN w)
  | 0x3 => .seImm (fieldX w) (fieldKK w)
  | 0x4 => .sneImm (fieldX w) (fieldKK w)
  | 0x5 => .seReg (fieldX w) (fieldY w)
  | 0x6 => .ldImm (fieldX w) (fieldKK w)
  | 0x7 => .addImm (fieldX w) (fieldKK w)
  | 0x8 => decodeFamily8 w
  | 0x9 => .sneReg (fieldX w) (fieldY w)
  | 0xA => .ldI (fieldNNN w)
  | 0xB => .jpV0 (fieldNNN w)
  | 0xC => .rnd (fieldX w) (fieldKK w)
  | 0xD => .drw (fieldX w) (fieldY w) (fieldN w)
  | 0xE => decodeFamilyE w
  | _ => decodeFamilyF w

/-! ## Bytes -/

/-- Why a byte sequence gives no instruction: the only way, since every word decodes (R79). -/
inductive DecodeError where
  /-- fewer than the two bytes of an instruction (R70) -/
  | truncated
  deriving DecidableEq, Repr

/-- The word of two bytes, the first (at the lower address) in bits 15:8 (R50). -/
def wordOfBytes (hi lo : Byte) : Word := hi ++ lo

/-- The two bytes of a word in memory order, high byte first (R50). -/
def bytesOfWord (w : Word) : List Byte := [w.extractLsb' 8 8, w.extractLsb' 0 8]

/-- The instruction at the front of a byte sequence, with the bytes after it (R50, R70, R79). -/
def decode : List Byte → Except DecodeError (Instr × List Byte)
  | hi :: lo :: rest => .ok (decodeWord (wordOfBytes hi lo), rest)
  | _ => .error .truncated

/-- The host's reading of one opcode-table row: the instruction whose `nbits` bits are `w`, bits above `nbits` zero, its
word laid out in memory order and given to `decode`. -/
def decodeTableWord (nbits w : Nat) : Option Instr :=
  match decode (bytesOfWord (BitVec.ofNat 16 (w % 2 ^ nbits))) with
  | .ok (i, _) => some i
  | .error _ => none

/-! ## The opcode table of R75 and the no-op words of R77 -/

/-- A row of R75: `w` selects it when `w & mask = pattern`. -/
structure OpRow where
  mask : Word
  pattern : Word
  deriving DecidableEq, Repr

/-- `w & mask = match` (R75). -/
def OpRow.selects (r : OpRow) (w : Word) : Bool := w &&& r.mask == r.pattern

/-- The row of R75 an instruction stands in; the no-op stands in none. -/
def Instr.row : Instr → Option OpRow
  | .cls => some ⟨0xF00F, 0x0000⟩
  | .ret => some ⟨0xF00F, 0x000E⟩
  | .jp _ => some ⟨0xF000, 0x1000⟩
  | .call _ => some ⟨0xF000, 0x2000⟩
  | .seImm _ _ => some ⟨0xF000, 0x3000⟩
  | .sneImm _ _ => some ⟨0xF000, 0x4000⟩
  | .seReg _ _ => some ⟨0xF000, 0x5000⟩
  | .ldImm _ _ => some ⟨0xF000, 0x6000⟩
  | .addImm _ _ => some ⟨0xF000, 0x7000⟩
  | .ldReg _ _ => some ⟨0xF00F, 0x8000⟩
  | .orReg _ _ => some ⟨0xF00F, 0x8001⟩
  | .andReg _ _ => some ⟨0xF00F, 0x8002⟩
  | .xorReg _ _ => some ⟨0xF00F, 0x8003⟩
  | .addReg _ _ => some ⟨0xF00F, 0x8004⟩
  | .subReg _ _ => some ⟨0xF00F, 0x8005⟩
  | .shr _ => some ⟨0xF00F, 0x8006⟩
  | .subnReg _ _ => some ⟨0xF00F, 0x8007⟩
  | .shl _ => some ⟨0xF00F, 0x800E⟩
  | .sneReg _ _ => some ⟨0xF000, 0x9000⟩
  | .ldI _ => some ⟨0xF000, 0xA000⟩
  | .jpV0 _ => some ⟨0xF000, 0xB000⟩
  | .rnd _ _ => some ⟨0xF000, 0xC000⟩
  | .drw _ _ _ => some ⟨0xF000, 0xD000⟩
  | .skp _ => some ⟨0xF00F, 0xE00E⟩
  | .sknp _ => some ⟨0xF00F, 0xE001⟩
  | .ldVxDT _ => some ⟨0xF0FF, 0xF007⟩
  | .ldVxK _ => some ⟨0xF0FF, 0xF00A⟩
  | .ldDTVx _ => some ⟨0xF0FF, 0xF015⟩
  | .ldSTVx _ => some ⟨0xF0FF, 0xF018⟩
  | .addIVx _ => some ⟨0xF0FF, 0xF01E⟩
  | .ldFVx _ => some ⟨0xF0FF, 0xF029⟩
  | .ldBVx _ => some ⟨0xF0FF, 0xF033⟩
  | .ldMemVx _ => some ⟨0xF0FF, 0xF055⟩
  | .ldVxMem _ => some ⟨0xF0FF, 0xF065⟩
  | .nop _ => none

/-- The 34 rows of R75, in its order. -/
def opcodeTable : List OpRow :=
  [⟨0xF00F, 0x0000⟩, ⟨0xF00F, 0x000E⟩, ⟨0xF000, 0x1000⟩, ⟨0xF000, 0x2000⟩, ⟨0xF000, 0x3000⟩, ⟨0xF000, 0x4000⟩,
    ⟨0xF000, 0x5000⟩, ⟨0xF000, 0x6000⟩, ⟨0xF000, 0x7000⟩, ⟨0xF00F, 0x8000⟩, ⟨0xF00F, 0x8001⟩, ⟨0xF00F, 0x8002⟩,
    ⟨0xF00F, 0x8003⟩, ⟨0xF00F, 0x8004⟩, ⟨0xF00F, 0x8005⟩, ⟨0xF00F, 0x8006⟩, ⟨0xF00F, 0x8007⟩, ⟨0xF00F, 0x800E⟩]
  ++ [⟨0xF000, 0x9000⟩, ⟨0xF000, 0xA000⟩, ⟨0xF000, 0xB000⟩, ⟨0xF000, 0xC000⟩, ⟨0xF000, 0xD000⟩, ⟨0xF00F, 0xE00E⟩,
    ⟨0xF00F, 0xE001⟩, ⟨0xF0FF, 0xF007⟩, ⟨0xF0FF, 0xF00A⟩, ⟨0xF0FF, 0xF015⟩, ⟨0xF0FF, 0xF018⟩, ⟨0xF0FF, 0xF01E⟩,
    ⟨0xF0FF, 0xF029⟩, ⟨0xF0FF, 0xF033⟩, ⟨0xF0FF, 0xF055⟩, ⟨0xF0FF, 0xF065⟩]

/-- The words of R77, by its own table: family 0 or E with a low nibble outside its two keys, family 8 with a low nibble
among the seven unused, family F with a low byte outside the nine. -/
def isNoOpWord (w : Word) : Bool :=
  let key := (nibble w 0).toNat
  let low := (fieldKK w).toNat
  match (family w).toNat with
  | 0x0 => ! [0x0, 0xE].contains key
  | 0x8 => [0x8, 0x9, 0xA, 0xB, 0xC, 0xD, 0xF].contains key
  | 0xE => ! [0x1, 0xE].contains key
  | 0xF => ! [0x07, 0x0A, 0x15, 0x18, 0x1E, 0x29, 0x33, 0x55, 0x65].contains low
  | _ => false

/-! ## The encoder -/

/-- A word of four nibbles, bits 15:12 first (R71). -/
def wordOfNibbles (f x y k : Fin 16) : Word :=
  BitVec.ofFin (w := 4) f ++ BitVec.ofFin (w := 4) x ++ BitVec.ofFin (w := 4) y ++ BitVec.ofFin (w := 4) k

/-- Format A: family and `nnn` (R71). -/
def wordOfAddress (f : Fin 16) (nnn : BitVec 12) : Word := BitVec.ofFin (w := 4) f ++ nnn

/-- Format K, and format X of family F with its key in `kk`: family, `x` and `kk` (R71). -/
def wordOfImmediate (f x : Fin 16) (kk : Byte) : Word := BitVec.ofFin (w := 4) f ++ BitVec.ofFin (w := 4) x ++ kk

/-- The word an assembler emits for an instruction: the canonical pattern of R75 with its fields filled in, and 0 in the
nibbles R80 says are emitted as 0. The no-op has no assembler form; its word is the one it carries. -/
def encode : Instr → Word
  | .cls => 0x00E0
  | .ret => 0x00EE
  | .jp nnn => wordOfAddress 0x1 nnn
  | .call nnn => wordOfAddress 0x2 nnn
  | .seImm x kk => wordOfImmediate 0x3 x kk
  | .sneImm x kk => wordOfImmediate 0x4 x kk
  | .seReg x y => wordOfNibbles 0x5 x y 0x0
  | .ldImm x kk => wordOfImmediate 0x6 x kk
  | .addImm x kk => wordOfImmediate 0x7 x kk
  | .ldReg x y => wordOfNibbles 0x8 x y 0x0
  | .orReg x y => wordOfNibbles 0x8 x y 0x1
  | .andReg x y => wordOfNibbles 0x8 x y 0x2
  | .xorReg x y => wordOfNibbles 0x8 x y 0x3
  | .addReg x y => wordOfNibbles 0x8 x y 0x4
  | .subReg x y => wordOfNibbles 0x8 x y 0x5
  | .shr x => wordOfNibbles 0x8 x 0x0 0x6
  | .subnReg x y => wordOfNibbles 0x8 x y 0x7
  | .shl x => wordOfNibbles 0x8 x 0x0 0xE
  | .sneReg x y => wordOfNibbles 0x9 x y 0x0
  | .ldI nnn => wordOfAddress 0xA nnn
  | .jpV0 nnn => wordOfAddress 0xB nnn
  | .rnd x kk => wordOfImmediate 0xC x kk
  | .drw x y n => wordOfNibbles 0xD x y n
  | .skp x => wordOfImmediate 0xE x 0x9E
  | .sknp x => wordOfImmediate 0xE x 0xA1
  | .ldVxDT x => wordOfImmediate 0xF x 0x07
  | .ldVxK x => wordOfImmediate 0xF x 0x0A
  | .ldDTVx x => wordOfImmediate 0xF x 0x15
  | .ldSTVx x => wordOfImmediate 0xF x 0x18
  | .addIVx x => wordOfImmediate 0xF x 0x1E
  | .ldFVx x => wordOfImmediate 0xF x 0x29
  | .ldBVx x => wordOfImmediate 0xF x 0x33
  | .ldMemVx x => wordOfImmediate 0xF x 0x55
  | .ldVxMem x => wordOfImmediate 0xF x 0x65
  | .nop w => w

end Sys2Proof
end

