-- ==== Sys2Proof/Config.lean ====
section
/-!
DEFINITION. What one machine fixes and the spec leaves open (00_scope.md R7): the font, the edge policy and the width of a
framebuffer cell; and the free value behind the random byte.
-/

namespace Sys2Proof

/-- DRAW_EDGE: what becomes of a sprite pixel past the right or bottom edge (R7, R172, R174). Exactly these two values. -/
inductive DrawEdge where
  /-- each pixel wraps on its own (R172) -/
  | wrap
  /-- a pixel outside the grid is not drawn (R174) -/
  | clip
  deriving DecidableEq, Repr

/-- FONT, the part of it the spec leaves open: the glyphs 1 to F, five bytes each, top row first (R22). Glyph 0 is
fixed and is no part of this structure (`Machine.glyphZero`). -/
structure Font where
  glyphs : Vector (Vector Byte 5) 15
  deriving DecidableEq, Repr

/-- The two parameters of a machine that the step reads (R7, R37). They are fixed for a machine. -/
structure Config where
  font : Font
  drawEdge : DrawEdge
  deriving DecidableEq, Repr

/-- The default of FONT (R22). PRESUMED: the spec marks the rows 1 to F as general knowledge (notes/assumptions/3). -/
def Font.default : Font where
  glyphs := #v[
    #v[0x20, 0x60, 0x20, 0x20, 0x70], #v[0xF0, 0x10, 0xF0, 0x80, 0xF0], #v[0xF0, 0x10, 0xF0, 0x10, 0xF0],
    #v[0x90, 0x90, 0xF0, 0x10, 0x10], #v[0xF0, 0x80, 0xF0, 0x10, 0xF0], #v[0xF0, 0x80, 0xF0, 0x90, 0xF0],
    #v[0xF0, 0x10, 0x20, 0x40, 0x40], #v[0xF0, 0x90, 0xF0, 0x90, 0xF0], #v[0xF0, 0x90, 0xF0, 0x10, 0xF0],
    #v[0xF0, 0x90, 0xF0, 0x90, 0x90], #v[0xE0, 0x90, 0xE0, 0x90, 0xE0], #v[0xF0, 0x80, 0x80, 0x80, 0xF0],
    #v[0xE0, 0x90, 0x90, 0x90, 0xE0], #v[0xF0, 0x80, 0xF0, 0x80, 0xF0], #v[0xF0, 0x80, 0xF0, 0x80, 0x80]]

/-- The machine with the spec's defaults: the table of R22 and WRAP (R7). DESIGN CHOICE of the spec, D4 and D6
(notes/assumptions/2 and 3). -/
def Config.default : Config where
  font := Font.default
  drawEdge := .wrap

/-- The free value behind the random byte (R142, R98): the byte of the `k`-th Cycle for which the host's input list
names none. It has no body: nothing is known of it, so a claim about it holds for every draw (notes/assumptions/5). -/
opaque Config.freeRnd : Nat → Byte

/-- CELL_W less one. It has no body: the spec fixes CELL_W to a positive integer and no more (R7, R30). -/
opaque Config.cellWidthPred : Nat

/-- CELL_W, the width in bits of one framebuffer cell as the host sees it: open, positive (R7, R30;
notes/assumptions/10). -/
def Config.cellW : Nat := Config.cellWidthPred + 1

end Sys2Proof
end

