-- ==== Sys2Proof/Machine/State.lean ====
section
/-!
DEFINITION. The state of the machine (10_state.md R20), its fault latch (60_exceptions.md R214), its reset (R36, R240) and
the two reason types of the host's interface. State is plain data.
-/

namespace Sys2Proof.Machine

/-- The contents of `mem` that differ from the contents after reset: (address, byte) pairs, addresses strictly rising,
below 4096, no byte equal to what an unlisted address reads as (`Memory.wf` in Machine/Ops.lean; notes/assumptions/6). -/
abbrev Memory := List Host.Cell

/-- The 64 by 32 framebuffer, row-major, origin top-left; `true` is a set cell (R30). -/
abbrev Frame := Vector (Vector Bool 64) 32

/-- The causes of R218. -/
inductive FaultCause where
  /-- 2nnn with SP = 16 (R210) -/
  | stackOverflow
  /-- 00EE with SP = 0 (R211) -/
  | stackUnderflow
  /-- Dxyn, Fx33, Fx55 or Fx65 beyond address 4095 (R212) -/
  | memoryBounds
  /-- the fetch with pc above 4094 (R213) -/
  | fetchBounds
  /-- Ex9E or ExA1 with V[x] above 15 (R217) -/
  | keyIndex
  deriving DecidableEq, Repr

/-- One record of the fault latch (R214). -/
structure FaultRecord where
  /-- the cause, a code 1 to 5 of R218 (`FaultCause.code`) -/
  cause : FaultCause
  /-- `pc` at the start of the faulting Cycle -/
  addr : Word
  /-- the fetched word, or 0x0000 for FetchBounds -/
  opcode : Word
  deriving DecidableEq, Repr

/-- What the host presents at one tick: the keypad and the random byte (R98, R228). -/
structure Input where
  keys : BitVec 16
  rnd : Byte
  deriving DecidableEq, Repr

/-- The state. The fields down to `fault` are the tuple of R20; the last four are the model's own and hold what the spec
gives the step as parameters and inputs (R7, R37; notes/assumptions/1, 4 and 5). -/
structure State where
  /-- memory, R21 -/
  mem : Memory
  /-- V0 to VF, R23 -/
  v : Vector Byte 16
  /-- the index register I, R25 -/
  i : Word
  /-- the program counter, R26 -/
  pc : Word
  /-- the sixteen return-address slots, R27 -/
  stack : Vector Word 16
  /-- the stack pointer SP, 0 to 16, R27 and R35(c) -/
  sp : Fin 17
  /-- the delay timer, R28 -/
  dt : Byte
  /-- the sound timer, R29 -/
  st : Byte
  /-- the framebuffer, R30 -/
  fb : Frame
  /-- the keypad, bit k is key k, R31 -/
  keys : BitVec 16
  /-- the opcode latch, R32 -/
  op : Word
  /-- the fault latch, R33 and R214 -/
  fault : Option FaultRecord
  /-- the model's own: FONT and DRAW_EDGE of this machine, R7; no step writes it -/
  cfg : Config
  /-- the model's own: the random byte of the present Cycle, R98; the step sets it before anything reads it -/
  rnd : Byte
  /-- the model's own: what the host presents at the coming ticks, oldest first, R228 -/
  inputs : List Input
  /-- the model's own: how many free random bytes have been taken -/
  draws : Nat
  deriving DecidableEq, Repr

/-- The fault outcome of `Host.Outcome`. It has no constructor: nothing raises it. A fault of this machine is no stop of
the model but a next state with the fault latch set (R214 to R216; notes/assumptions/7). Safe: no behaviour is left out. -/
inductive Fault where
  deriving DecidableEq, Repr

/-- The refusals of the model. -/
inductive Refusal where
  /-- Raised by an arm of `exec` whose instruction has no meaning yet; no arm is left so. Safe: the model stops. -/
  | notModelled (mnemonic : String)
  deriving DecidableEq, Repr

/-- The reset state of a machine with parameters `c` whose host will present `inputs` (R36, R240). -/
def State.resetWith (c : Config) (inputs : List Input) : State where
  mem := []
  v := Vector.replicate 16 0
  i := 0
  pc := 0x200
  stack := Vector.replicate 16 0
  sp := 0
  dt := 0
  st := 0
  fb := Vector.replicate 32 (Vector.replicate 64 false)
  keys := 0
  op := 0
  fault := none
  cfg := c
  rnd := 0
  inputs := inputs
  draws := 0

/-- The machine right after reset (R36): the spec's default parameters (R7), and a host that has presented nothing. -/
def State.reset : State := State.resetWith Config.default []

end Sys2Proof.Machine
end

