-- ==== Sys2Proof/Machine/Ops.lean ====
section
/-!
DEFINITION. The named operations over the state: memory, registers, stack, program counter, framebuffer cells, and taking a
fault (spec 00_scope.md R10, 10_state.md, 20_memory.md, 60_exceptions.md R214, R215).
-/

namespace Sys2Proof.Machine

/-! ## Memory -/

/-- Glyph 0 of the font, the five bytes the document gives (R22). -/
def glyphZero : Vector Byte 5 := #v[0xF0, 0x90, 0x90, 0x90, 0xF0]

/-- Byte `k` of FONT, `k` from 0 to 79: glyph `k / 5`, row `k % 5` (R22). -/
def fontByte (c : Config) (k : Nat) : Byte :=
  if k < 5 then glyphZero[k % 5] else c.font.glyphs[(k / 5 - 1) % 15][k % 5]

/-- What memory holds after reset, and so what an unlisted address reads as: FONT at 0x050 to 0x09F and zero elsewhere
(R21, R22, R36; notes/assumptions/6). -/
def initialByte (c : Config) (a : Nat) : Byte :=
  if 0x050 ≤ a ∧ a < 0x0A0 then fontByte c (a - 0x050) else 0

/-- The byte at address `a` (R10, R54). R10 defines it for addresses 0 to 4095; every caller has checked (R55, R91). -/
def Memory.read (c : Config) : Memory → Nat → Byte
  | [], a => initialByte c a
  | (k, b) :: m, a => if a = k then b else Memory.read c m a

/-- The list with `b` at address `a`, in the canonical form (R10, R54). R10 defines it for addresses 0 to 4095. -/
def Memory.write (c : Config) : Memory → Nat → Byte → Memory
  | [], a, b => if b = initialByte c a then [] else [(a, b)]
  | (k, d) :: m, a, b =>
    if a < k then (if b = initialByte c a then (k, d) :: m else (a, b) :: (k, d) :: m)
    else if a = k then (if b = initialByte c a then m else (a, b) :: m)
    else (k, d) :: Memory.write c m a b

/-- The listed addresses rise strictly, all from `lo` on and below 4096, and no listed byte is the reset one. -/
def Memory.wfFrom (c : Config) : Nat → Memory → Bool
  | _, [] => true
  | lo, (k, b) :: m => decide (lo ≤ k) && decide (k < 4096) && b != initialByte c k && Memory.wfFrom c (k + 1) m

/-- The canonical form of memory. -/
def Memory.wf (c : Config) (m : Memory) : Bool := Memory.wfFrom c 0 m

/-- `MemRead(a, 1)` (R10). -/
def State.readByte (s : State) (a : Nat) : Byte := Memory.read s.cfg s.mem a

/-- `MemWrite(a, 1, b)` (R10). -/
def State.writeByte (s : State) (a : Nat) (b : Byte) : State := { s with mem := Memory.write s.cfg s.mem a b }

/-- `MemRead(a, 2)`, big-endian: the byte at `a` in the high half (R10, R50). -/
def State.readWord (s : State) (a : Nat) : Word := s.readByte a ++ s.readByte (a + 1)

/-- The bytes at `a`, `a + 1`, …, `n` of them, by rising address (R51). -/
def State.readBytes (s : State) (a : Nat) : Nat → List Byte
  | 0 => []
  | n + 1 => s.readByte a :: s.readBytes (a + 1) n

/-- Stores a list of bytes at `a`, `a + 1`, …, by rising address (R51). -/
def State.writeBytes (s : State) (a : Nat) : List Byte → State
  | [] => s
  | b :: bs => (s.writeByte a b).writeBytes (a + 1) bs

/-! ## Registers -/

/-- `V[r]` (R23). -/
def State.getV (s : State) (r : Reg) : Byte := s.v[r.val]

/-- `V[r] <- b` (R23). -/
def State.setV (s : State) (r : Reg) (b : Byte) : State := { s with v := s.v.set r.val b }

/-- VF, the flag register, is `V[15]` (R24). -/
def flagReg : Reg := 15

/-- `VF <- b` as a flag (R24). -/
def State.setVF (s : State) (b : Byte) : State := s.setV flagReg b

/-- Writes a result and then its flag, the flag last, so that with `x = 15` the flag remains (R11). -/
def State.setResultFlag (s : State) (x : Reg) (result flag : Byte) : State := (s.setV x result).setVF flag

/-- `I <- w` (R25). -/
def State.setI (s : State) (w : Word) : State := { s with i := w }

/-- `DT <- b` (R28). -/
def State.setDT (s : State) (b : Byte) : State := { s with dt := b }

/-- `ST <- b` (R29). -/
def State.setST (s : State) (b : Byte) : State := { s with st := b }

/-! ## Program counter and stack -/

/-- `pc <- target`, unchecked (R110). -/
def State.jump (s : State) (target : Word) : State := { s with pc := target }

/-- "Skip next instruction": `pc <- pc + 2` when the condition holds (R110). -/
def State.skipIf (s : State) (cond : Bool) : State := if cond then { s with pc := s.pc + 2 } else s

/-- `stack[SP] <- w`, then `SP <- SP + 1`; `none` when SP = 16 (R27, R113). -/
def State.push (s : State) (w : Word) : Option State :=
  if h : s.sp.val < 16 then
    some { s with stack := s.stack.set s.sp.val w, sp := ⟨s.sp.val + 1, by omega⟩ }
  else none

/-- `SP <- SP - 1`, then the value of `stack[SP]`, which the slot keeps; `none` when SP = 0 (R27, R111). -/
def State.pop (s : State) : Option (Word × State) :=
  if s.sp.val = 0 then none
  else some (s.stack[s.sp.val - 1], { s with sp := ⟨s.sp.val - 1, by omega⟩ })

/-! ## Framebuffer cells -/

/-- Cell `(r, c)`, row from the top and column from the left (R30). -/
def Frame.cell (f : Frame) (r : Fin 32) (c : Fin 64) : Bool := f[r.val][c.val]

/-- `fb[r][c] <- fb[r][c] ^ 1` (R172). -/
def Frame.flip (f : Frame) (r : Fin 32) (c : Fin 64) : Frame :=
  f.set r.val (f[r.val].set c.val (! f[r.val][c.val]))

/-- The framebuffer with every cell unset (R170). -/
def Frame.clear : Frame := Vector.replicate 32 (Vector.replicate 64 false)

/-! ## Taking a fault -/

/-- `fault <- (cause, addr, opcode)` (R214). -/
def State.latch (s : State) (cause : FaultCause) (addr opcode : Word) : State :=
  { s with fault := some ⟨cause, addr, opcode⟩ }

/-- `raise cause` in a handler (R215): the latch takes the cause, the address A of the instruction and its word, and `pc`
is A again. A handler sees the post-fetch `pc` = A + 2 (R92) and the fetched word in `op`, and it raises before its first
write, so nothing else has to be undone but `op`, which the Cycle restores (`endCycle`). -/
def raise (s : State) (cause : FaultCause) : State :=
  State.latch { s with pc := s.pc - 2 } cause (s.pc - 2) s.op

end Sys2Proof.Machine
end

