-- ==== Sys2Proof/Machine/Cycle.lean ====
section
/-!
DEFINITION. The phases of the Cycle around the handler (spec 40_cycle_and_dispatch.md R90 to R98): sampling the inputs,
fetch, advance, and the end of the Cycle with its timer step. Machine/Step.lean puts them together.
-/

namespace Sys2Proof.Machine

/-- The inputs of this Cycle (R98, R228): the head of the host's list. Past its end the host leaves the keypad as it is
and the random byte is a free value, a new one at every Cycle (notes/assumptions/4 and 5). -/
def State.sample (s : State) : State :=
  match s.inputs with
  | [] => { s with rnd := Config.freeRnd s.draws, draws := s.draws + 1 }
  | i :: rest => { s with keys := i.keys, rnd := i.rnd, inputs := rest }

/-- The fetch (R91): the word at `pc`, `none` when `pc` > 4094. -/
def State.fetch (s : State) : Option Word := if s.pc.toNat > 4094 then none else some (s.readWord s.pc.toNat)

/-- `op <- w` and `pc <- A + 2` (R91, R92). -/
def State.advance (s : State) (w : Word) : State := { s with op := w, pc := s.pc + 2 }

/-- One timer, floor at 0 (R95). -/
def timerTick (b : Byte) : Byte := if b = 0 then 0 else b - 1

/-- The timer step (R95). -/
def State.timerStep (s : State) : State := { s with dt := timerTick s.dt, st := timerTick s.st }

/-- The fetch's own fault (R213): nothing else happens in the Cycle. -/
def State.raiseFetch (s : State) : State := s.latch .fetchBounds s.pc 0

/-- The end of a Cycle that began with the opcode latch `op0`: after a fault the old `op` stands again and no timer moves
(R215); otherwise the timer step (R95). `t` is the handler's result; the latch was empty before it (R97). -/
def endCycle (op0 : Word) (t : State) : State :=
  match t.fault with
  | some _ => { t with op := op0 }
  | none => t.timerStep

/-- An instruction placed where the next fetch reads it: the word's bytes at `pc` and `pc + 1` (R50). -/
def State.placeWord (s : State) (w : Word) : State :=
  if s.pc.toNat > 4094 then s else s.writeBytes s.pc.toNat [w.extractLsb' 8 8, w.extractLsb' 0 8]

end Sys2Proof.Machine
end

