-- ==== Sys2Proof/Machine/Flags.lean ====
section
/-!
DEFINITION. The flag values, always 0x00 or 0x01 (spec 10_state.md R24).
-/

namespace Sys2Proof.Machine

/-- A flag as a byte: 0x01 or 0x00 (R24). -/
def flagByte (b : Bool) : Byte := if b then 1 else 0

/-- 8xy4: the true sum exceeds 255 (R136). -/
def carryFlag (a b : Byte) : Byte := flagByte (decide (a.toNat + b.toNat > 255))

/-- 8xy5 with `a - b`, 8xy7 with the operands exchanged: no borrow occurs (R137, R139). -/
def noBorrowFlag (a b : Byte) : Byte := flagByte (decide (a.toNat ≥ b.toNat))

/-- 8xy6: bit 0, the bit shifted out (R138). -/
def lowBitFlag (a : Byte) : Byte := flagByte (a.getLsbD 0)

/-- 8xyE: bit 7, the bit shifted out (R140). -/
def highBitFlag (a : Byte) : Byte := flagByte (a.getLsbD 7)

end Sys2Proof.Machine
end

