-- ==== Sys2Proof/Machine/Operands.lean ====
section
/-!
DEFINITION. The operand forms: immediates, register blocks, the key index, and the one addressing mode, base I plus a small
offset, with its bounds check (spec 20_memory.md R55, 30_encoding.md R72, 43_index_memory.md R149).
-/

namespace Sys2Proof.Machine

/-- `zext_16(nnn)` (R72). -/
def addressOperand (nnn : BitVec 12) : Word := nnn.setWidth 16

/-- `zext_16(b)` of a register value (R72, R118, R151). -/
def wide (b : Byte) : Word := b.setWidth 16

/-- The bounds check of R55 for `len` bytes from I on: the highest address `I + len - 1`, unbounded and unmasked, is at
most 4095. An empty access always passes. -/
def State.blockInBounds (s : State) (len : Nat) : Bool := len == 0 || decide (s.i.toNat + (len - 1) ≤ 4095)

/-- The values of V0 to Vx, x + 1 of them (R154). -/
def State.regBlock (s : State) (x : Reg) : List Byte := s.v.toList.take (x.val + 1)

/-- V0 to Vx take the bytes at I, I + 1, …; the registers above x keep theirs (R155). -/
def State.loadRegs (s : State) (x : Reg) : State :=
  { s with v := Vector.ofFn fun r : Fin 16 => if r.val ≤ x.val then s.readByte (s.i.toNat + r.val) else s.getV r }

/-- The decimal digits of a byte, hundreds, tens, ones, as numbers 0 to 9 (R153). -/
def decimalDigits (a : Byte) : List Byte :=
  [BitVec.ofNat 8 (a.toNat / 100), BitVec.ofNat 8 (a.toNat / 10 % 10), BitVec.ofNat 8 (a.toNat % 10)]

/-- The key a register value names, `none` above 15 (R190). -/
def keyIndex (b : Byte) : Option (Fin 16) := if h : b.toNat < 16 then some ⟨b.toNat, h⟩ else none

/-- `keys[k] = 1`: key `k` is pressed in this Cycle's snapshot (R31). -/
def State.keyPressed (s : State) (k : Fin 16) : Bool := s.keys.getLsbD k.val

/-- The least pressed key, `none` when no key is pressed (R192). -/
def State.leastKey (s : State) : Option (Fin 16) := (List.finRange 16).find? s.keyPressed

/-- The address of glyph `b`: `0x0050 + 5 * zext_16(b)`, the whole 8-bit value (R152). -/
def glyphAddress (b : Byte) : Word := 0x0050 + 5 * wide b

end Sys2Proof.Machine
end

