-- ==== Sys2Proof/Machine/Control.lean ====
section
/-!
DEFINITION. Control transfer (spec 41_control_flow.md R110 to R118) and the no-op handler (40_cycle_and_dispatch.md R96).
A meaning reads the state after the fetch: `pc` is A + 2 and `op` the fetched word (R92).
-/

namespace Sys2Proof.Machine

/-- 00EE, RET (R111): StackUnderflow when SP = 0 (R211). -/
def execRet (s : State) : Host.Outcome State Fault Refusal :=
  match s.pop with
  | none => .next (raise s .stackUnderflow)
  | some (target, t) => .next (t.jump target)

/-- 1nnn, JP nnn (R112). -/
def execJp (nnn : BitVec 12) (s : State) : Host.Outcome State Fault Refusal :=
  .next (s.jump (addressOperand nnn))

/-- 2nnn, CALL nnn (R113): StackOverflow when SP = 16 (R210). -/
def execCall (nnn : BitVec 12) (s : State) : Host.Outcome State Fault Refusal :=
  match s.push s.pc with
  | none => .next (raise s .stackOverflow)
  | some t => .next (t.jump (addressOperand nnn))

/-- 3xkk, SE Vx, kk (R114). -/
def execSeImm (x : Reg) (kk : Byte) (s : State) : Host.Outcome State Fault Refusal :=
  .next (s.skipIf (s.getV x == kk))

/-- 4xkk, SNE Vx, kk (R115). -/
def execSneImm (x : Reg) (kk : Byte) (s : State) : Host.Outcome State Fault Refusal :=
  .next (s.skipIf (s.getV x != kk))

/-- 5xy0, SE Vx, Vy (R116). -/
def execSeReg (x y : Reg) (s : State) : Host.Outcome State Fault Refusal :=
  .next (s.skipIf (s.getV x == s.getV y))

/-- 9xy0, SNE Vx, Vy (R117). -/
def execSneReg (x y : Reg) (s : State) : Host.Outcome State Fault Refusal :=
  .next (s.skipIf (s.getV x != s.getV y))

/-- Bnnn, JP V0, nnn (R118): the register is always V0. -/
def execJpV0 (nnn : BitVec 12) (s : State) : Host.Outcome State Fault Refusal :=
  .next (s.jump (addressOperand nnn + wide (s.getV 0)))

/-- The no-op handler (R96): every field of its word is ignored. -/
def execNop (_w : Word) (s : State) : Host.Outcome State Fault Refusal :=
  .next s

end Sys2Proof.Machine
end

