-- ==== Sys2Proof/Machine/Display.lean ====
section
/-!
DEFINITION. Clear and sprite draw: the framebuffer writer and the collision detector (spec 44_display.md R169 to R175).
-/

namespace Sys2Proof.Machine

/-- 00E0, CLS (R170). -/
def execCls (s : State) : Host.Outcome State Fault Refusal :=
  .next { s with fb := Frame.clear }

/-- The coordinate of the pixel at offset `k` from origin `p` on an axis of `size` cells: wrapped on its own under WRAP
(R172), `none` past the last cell under CLIP (R174). Inside the grid the two agree. -/
def pixelCoord (edge : DrawEdge) (size : Nat) (hs : 0 < size) (p k : Nat) : Option (Fin size) :=
  if h : p + k < size then some ⟨p + k, h⟩
  else match edge with
    | .wrap => some ⟨(p + k) % size, Nat.mod_lt _ hs⟩
    | .clip => none

/-- The framebuffer of a draw under way, and whether a cell has collided so far (R173). -/
structure Draw where
  fb : Frame
  collision : Bool
  deriving DecidableEq, Repr

/-- Draws one sprite bit that is 1 at row offset `r` and column offset `j` (R172, R174). -/
def drawPixel (edge : DrawEdge) (x0 y0 r j : Nat) (d : Draw) : Draw :=
  match pixelCoord edge 32 (by decide) y0 r, pixelCoord edge 64 (by decide) x0 j with
  | some rr, some c => { fb := d.fb.flip rr c, collision := d.collision || d.fb.cell rr c }
  | _, _ => d

/-- Draws one row byte: column offset `j` is bit `7 - j`, bit 7 leftmost (R171). -/
def drawRow (edge : DrawEdge) (x0 y0 r : Nat) (row : Byte) (d : Draw) : Draw :=
  (List.range 8).foldl (fun d j => if row.getLsbD (7 - j) then drawPixel edge x0 y0 r j d else d) d

/-- Draws the row bytes from row offset `r` on, top row first (R171, R172). -/
def drawRows (edge : DrawEdge) (x0 y0 : Nat) : Nat → List Byte → Draw → Draw
  | _, [], d => d
  | r, row :: rows, d => drawRows edge x0 y0 (r + 1) rows (drawRow edge x0 y0 r row d)

/-- The whole draw of R172: the sprite's `n` rows at I, the origin `(V[x] mod 64, V[y] mod 32)`, the collision detector
at 0 to begin with (R173). -/
def drawSprite (s : State) (x y : Reg) (n : Nat) : Draw :=
  drawRows s.cfg.drawEdge ((s.getV x).toNat % 64) ((s.getV y).toNat % 32) 0 (s.readBytes s.i.toNat n) ⟨s.fb, false⟩

/-- Dxyn, DRW Vx, Vy, n (R172): VF is the collision, written last and once; MemoryBounds when the sprite leaves memory. -/
def execDrw (x y : Reg) (n : Fin 16) (s : State) : Host.Outcome State Fault Refusal :=
  if s.blockInBounds n.val then
    .next (State.setVF { s with fb := (drawSprite s x y n.val).fb } (flagByte (drawSprite s x y n.val).collision))
  else .next (raise s .memoryBounds)

end Sys2Proof.Machine
end

