-- ==== Sys2Proof/Machine/Index.lean ====
section
/-!
DEFINITION. Index register and memory-block instructions (spec 43_index_memory.md R149 to R155). A block that leaves 0 to
4095 raises MemoryBounds before any access (20_memory.md R55, 60_exceptions.md R212). I is never changed by an access.
-/

namespace Sys2Proof.Machine

/-- Annn, LD I, nnn (R150). -/
def execLdI (nnn : BitVec 12) (s : State) : Host.Outcome State Fault Refusal :=
  .next (s.setI (addressOperand nnn))

/-- Fx1E, ADD I, Vx (R151): modulo 65536, no flag. -/
def execAddIVx (x : Reg) (s : State) : Host.Outcome State Fault Refusal :=
  .next (s.setI (s.i + wide (s.getV x)))

/-- Fx29, LD F, Vx (R152). -/
def execLdFVx (x : Reg) (s : State) : Host.Outcome State Fault Refusal :=
  .next (s.setI (glyphAddress (s.getV x)))

/-- Fx33, LD B, Vx (R153). -/
def execLdBVx (x : Reg) (s : State) : Host.Outcome State Fault Refusal :=
  if s.blockInBounds 3 then .next (s.writeBytes s.i.toNat (decimalDigits (s.getV x)))
  else .next (raise s .memoryBounds)

/-- Fx55, LD [I], Vx (R154). -/
def execLdMemVx (x : Reg) (s : State) : Host.Outcome State Fault Refusal :=
  if s.blockInBounds (x.val + 1) then .next (s.writeBytes s.i.toNat (s.regBlock x))
  else .next (raise s .memoryBounds)

/-- Fx65, LD Vx, [I] (R155). -/
def execLdVxMem (x : Reg) (s : State) : Host.Outcome State Fault Refusal :=
  if s.blockInBounds (x.val + 1) then .next (s.loadRegs x)
  else .next (raise s .memoryBounds)

end Sys2Proof.Machine
end

