-- ==== Sys2Proof/Machine/Keypad.lean ====
section
/-!
DEFINITION. Keypad and timer instructions (spec 45_keypad_timers.md R189 to R195). `keys` is the Cycle's one snapshot (R98);
the timer step that follows the handler is the Cycle's (R95).
-/

namespace Sys2Proof.Machine

/-- The shape of R190 and R191: KeyIndex when V[x] > 15 (R217), else a skip when the key's state is `want`. -/
def keySkip (want : Bool) (x : Reg) (s : State) : State :=
  match keyIndex (s.getV x) with
  | none => raise s .keyIndex
  | some k => s.skipIf (s.keyPressed k == want)

/-- Ex9E, SKP Vx (R190). -/
def execSkp (x : Reg) (s : State) : Host.Outcome State Fault Refusal :=
  .next (keySkip true x s)

/-- ExA1, SKNP Vx (R191). -/
def execSknp (x : Reg) (s : State) : Host.Outcome State Fault Refusal :=
  .next (keySkip false x s)

/-- Fx07, LD Vx, DT (R193): the value before this Cycle's timer step. -/
def execLdVxDT (x : Reg) (s : State) : Host.Outcome State Fault Refusal :=
  .next (s.setV x s.dt)

/-- Fx0A, LD Vx, K (R192): with no key pressed `pc` goes back by 2 and the next Cycle repeats the instruction. -/
def execLdVxK (x : Reg) (s : State) : Host.Outcome State Fault Refusal :=
  match s.leastKey with
  | none => .next (s.jump (s.pc - 2))
  | some k => .next (s.setV x (BitVec.ofNat 8 k.val))

/-- Fx15, LD DT, Vx (R194). -/
def execLdDTVx (x : Reg) (s : State) : Host.Outcome State Fault Refusal :=
  .next (s.setDT (s.getV x))

/-- Fx18, LD ST, Vx (R195). -/
def execLdSTVx (x : Reg) (s : State) : Host.Outcome State Fault Refusal :=
  .next (s.setST (s.getV x))

end Sys2Proof.Machine
end

