-- ==== Sys2Proof/Machine/Step.lean ====
section
/-!
DEFINITION. The one step of the machine, the Cycle (spec 40_cycle_and_dispatch.md R99).
-/

namespace Sys2Proof.Machine

/-- One Cycle (R99): a halted machine does nothing (R97); else sample, fetch, advance, dispatch, execute, timers. -/
def step (s : State) : Host.Outcome State Fault Refusal :=
  if s.fault.isSome then .next s
  else
    match s.sample.fetch with
    | none => .next s.sample.raiseFetch
    | some w =>
      match exec (decodeWord w) (s.sample.advance w) with
      | .next t => .next (endCycle s.op t)
      | .fault r => .fault r
      | .refused r => .refused r

/-- `s` with the instruction whose `nbits` bits are `w` (bits above `nbits` zero) placed at `pc`, its two bytes in memory
order, so that the next step fetches it. It stands for the host's load of a program (notes/assumptions/8). -/
def State.withFetchWord (s : State) (nbits w : Nat) : State := s.placeWord (BitVec.ofNat 16 (w % 2 ^ nbits))

end Sys2Proof.Machine
end

