-- ==== Sys2Proof/Machine/HostPort.lean ====
section
/-!
DEFINITION. What the host can do to the block and read from it (spec 60_exceptions.md R228): reset, load, tick, and the
output ports.
-/

namespace Sys2Proof.Machine

/-- `tick` with the inputs of this Cycle: `Cycle(s, keys, rnd)` of R99. -/
def tick (s : State) (keys : BitVec 16) (rnd : Byte) : Host.Outcome State Fault Refusal :=
  step { s with inputs := ⟨keys, rnd⟩ :: s.inputs }

/-- `reset` at a Cycle boundary (R228, R240): the reset state of this same machine. What the host will present, and the
count of free random bytes taken, are no state of the machine and stay. -/
def State.hostReset (s : State) : State := { State.resetWith s.cfg s.inputs with draws := s.draws }

/-- MAX_IMAGE (R6): `4096 - 0x200` bytes. -/
def maxImage : Nat := 3584

/-- `load(image)` after reset and before the first tick (R244): the state the first Cycle starts from, the image placed
from 0x200 on; an image that is too long is refused whole (R245). -/
def boot (c : Config) (image : List Byte) (inputs : List Input) : Option State :=
  if image.length ≤ maxImage then some ((State.resetWith c inputs).writeBytes 0x200 image) else none

/-- The `fb` read port: a cell as the host sees it, CELL_W bits, all 1 or all 0 (R30, R228). -/
def cellPort (s : State) (r : Fin 32) (c : Fin 64) : BitVec Config.cellW :=
  if s.fb.cell r c then BitVec.allOnes Config.cellW else 0

/-- `ST != 0` is "sound on" (R228). -/
def soundOn (s : State) : Bool := s.st != 0

/-- The cause codes of R218. -/
def FaultCause.code : FaultCause → BitVec 3
  | .stackOverflow => 1
  | .stackUnderflow => 2
  | .memoryBounds => 3
  | .fetchBounds => 4
  | .keyIndex => 5

/-- The `cause` field of the `fault` output, 0 when no fault is recorded (R214, R218). -/
def causePort (s : State) : BitVec 3 :=
  match s.fault with
  | none => 0
  | some r => r.cause.code

end Sys2Proof.Machine
end

