-- ==== Sys2Proof/Safety.lean ====
section
/-!
DEFINITION. The terms in which claims are made: good and gone-wrong states, the invariants, and the spec's own tables of
what each instruction may do, written out from the spec's tables and not from the meanings.
-/

namespace Sys2Proof.Machine

/-! ## Running, halted, gone wrong -/

/-- The machine is halted: the latch holds a record (R97, R216). -/
def State.Halted (s : State) : Prop := s.fault ≠ none

/-- A safe run of `k` steps: it ends in a state with no fault recorded. A recorded fault has gone wrong and is never a
normal end (R216). -/
def RunsSafely (k : Nat) (s : State) : Prop := ∃ t, Sys2Proof.core.run k s = .next t ∧ t.fault = none

/-- The machine stands on a jump to itself: the idiom that marks the end of a program (R250). -/
def State.AtSelfJump (s : State) : Prop :=
  s.fault = none ∧ s.pc.toNat ≤ 4094 ∧ s.readWord s.pc.toNat = 0x1000 ||| s.pc

/-- The model's end-of-run predicate, as R250 suggests it: at a jump to itself with both timers run down. -/
def State.AtEndOfRun (s : State) : Prop := s.AtSelfJump ∧ s.dt = 0 ∧ s.st = 0

/-- The instruction the next Cycle fetches, where it can fetch (R91, R93). -/
def State.nextInstr (s : State) : Instr := decodeWord (s.readWord s.pc.toNat)

/-! ## What an instruction leaves alone -/

/-- Every address reads as before. -/
def SameMemory (s t : State) : Prop := ∀ a, t.readByte a = s.readByte a

/-- Every V register but those listed reads as before. -/
def SameRegsBut (written : List Reg) (s t : State) : Prop := ∀ r, r ∉ written → t.getV r = s.getV r

/-- `t` is `s` but for the V registers listed. -/
def OnlyRegs (written : List Reg) (s t : State) : Prop :=
  SameRegsBut written s t ∧ SameMemory s t ∧ t = { s with v := t.v }

/-- `t` is `s` but for the program counter. -/
def OnlyPc (s t : State) : Prop := SameRegsBut [] s t ∧ SameMemory s t ∧ t = { s with pc := t.pc }

/-- `t` is `s` but for the index register. -/
def OnlyIndex (s t : State) : Prop := SameRegsBut [] s t ∧ SameMemory s t ∧ t = { s with i := t.i }

/-- `t` is `s` but for the bytes at `base`, `base + 1`, …, `len` of them. -/
def OnlyBytes (base len : Nat) (s t : State) : Prop :=
  SameRegsBut [] s t ∧ (∀ a, a < base ∨ base + len ≤ a → t.readByte a = s.readByte a) ∧ t = { s with mem := t.mem }

/-- The state after `raise` of a cause in a handler that saw `s` (R214, R215): `pc` at the instruction, the record of cause,
address and word, all else as it was. -/
def Raised (cause : FaultCause) (s t : State) : Prop :=
  t.fault = some ⟨cause, s.pc - 2, s.op⟩ ∧ t.pc = s.pc - 2 ∧ SameMemory s t ∧ SameRegsBut [] s t
    ∧ t = { s with pc := t.pc, fault := t.fault }

/-! ## The spec's tables -/

/-- The fault an instruction raises and its condition, from the table of R218 (the fetch's own fault is R213). -/
def expectedFault (i : Instr) (s : State) : Option FaultCause :=
  match i with
  | .call _ => if s.sp.val = 16 then some .stackOverflow else none
  | .ret => if s.sp.val = 0 then some .stackUnderflow else none
  | .drw _ _ n => if 1 ≤ n.val ∧ s.i.toNat + (n.val - 1) > 4095 then some .memoryBounds else none
  | .ldBVx _ => if s.i.toNat + 2 > 4095 then some .memoryBounds else none
  | .ldMemVx x | .ldVxMem x => if s.i.toNat + x.val > 4095 then some .memoryBounds else none
  | .skp x | .sknp x => if (s.getV x).toNat > 15 then some .keyIndex else none
  | .cls | .jp _ | .seImm _ _ | .sneImm _ _ | .seReg _ _ | .ldImm _ _ | .addImm _ _ | .ldReg _ _ | .orReg _ _
  | .andReg _ _ | .xorReg _ _ | .addReg _ _ | .subReg _ _ | .shr _ | .subnReg _ _ | .shl _ | .sneReg _ _ | .ldI _
  | .jpV0 _ | .rnd _ _ | .ldVxDT _ | .ldVxK _ | .ldDTVx _ | .ldSTVx _ | .addIVx _ | .ldFVx _ | .nop _ => none

/-- `A + 4` if the condition holds, else `A + 2` (R26). -/
def skipTarget (a : Word) (cond : Prop) [Decidable cond] : Word := if cond then a + 4 else a + 2

/-- `pc` after the Cycle of an instruction fetched at `a`, from the table of R26, with `s` the state the handler's operands
are read from. -/
def pcAfter (i : Instr) (a : Word) (s : State) : Word :=
  match i with
  | .seImm x kk => skipTarget a (s.getV x = kk)
  | .sneImm x kk => skipTarget a (s.getV x ≠ kk)
  | .seReg x y => skipTarget a (s.getV x = s.getV y)
  | .sneReg x y => skipTarget a (s.getV x ≠ s.getV y)
  | .skp x => skipTarget a (s.keys.getLsbD (s.getV x).toNat = true)
  | .sknp x => skipTarget a (s.keys.getLsbD (s.getV x).toNat = false)
  | .jp nnn | .call nnn => BitVec.ofNat 16 nnn.toNat
  | .jpV0 nnn => BitVec.ofNat 16 (nnn.toNat + (s.getV 0).toNat)
  | .ret => s.stack[s.sp.val - 1]
  | .ldVxK _ => if s.keys = 0 then a else a + 2
  | .cls | .ldImm _ _ | .addImm _ _ | .ldReg _ _ | .orReg _ _ | .andReg _ _ | .xorReg _ _ | .addReg _ _ | .subReg _ _
  | .shr _ | .subnReg _ _ | .shl _ | .ldI _ | .rnd _ _ | .drw _ _ _ | .ldVxDT _ | .ldDTVx _ | .ldSTVx _ | .addIVx _
  | .ldFVx _ | .ldBVx _ | .ldMemVx _ | .ldVxMem _ | .nop _ => a + 2

/-- The six instructions that write VF as a flag (R24). -/
def writesFlag (i : Instr) : Bool :=
  match i with
  | .addReg _ _ | .subReg _ _ | .shr _ | .subnReg _ _ | .shl _ | .drw _ _ _ => true
  | .cls | .ret | .jp _ | .call _ | .seImm _ _ | .sneImm _ _ | .seReg _ _ | .ldImm _ _ | .addImm _ _ | .ldReg _ _
  | .orReg _ _ | .andReg _ _ | .xorReg _ _ | .sneReg _ _ | .ldI _ | .jpV0 _ | .rnd _ _ | .skp _ | .sknp _ | .ldVxDT _
  | .ldVxK _ | .ldDTVx _ | .ldSTVx _ | .addIVx _ | .ldFVx _ | .ldBVx _ | .ldMemVx _ | .ldVxMem _ | .nop _ => false

/-- The register an instruction may write as data, from the rows "write `V[x]`" and "write `V[0..x]`" of R23. -/
def writesReg (i : Instr) (r : Reg) : Bool :=
  match i with
  | .ldImm x _ | .addImm x _ | .ldReg x _ | .orReg x _ | .andReg x _ | .xorReg x _ | .addReg x _ | .subReg x _ | .shr x
  | .subnReg x _ | .shl x | .rnd x _ | .ldVxDT x | .ldVxK x => decide (r = x)
  | .ldVxMem x => decide (r.val ≤ x.val)
  | .cls | .ret | .jp _ | .call _ | .seImm _ _ | .sneImm _ _ | .seReg _ _ | .sneReg _ _ | .ldI _ | .jpV0 _ | .drw _ _ _
  | .skp _ | .sknp _ | .ldDTVx _ | .ldSTVx _ | .addIVx _ | .ldFVx _ | .ldBVx _ | .ldMemVx _ | .nop _ => false

/-! ## The sprite of a draw -/

/-- Where the pixel at offset `k` from origin `p` lands on an axis of `size` cells: its wrapped coordinate under WRAP
(R172), its own coordinate, which may lie outside the grid, under CLIP (R174). -/
def landsOn (edge : DrawEdge) (size p k : Nat) : Nat :=
  match edge with
  | .wrap => (p + k) % size
  | .clip => p + k

/-- Some 1 bit of the sprite of Dxyn in state `s` falls on cell `(r, c)`: row byte `k` of `n` at `I + k`, column offset `j` is
bit `7 - j` (R171), the origin `(V[x] mod 64, V[y] mod 32)`. -/
def SpriteCovers (s : State) (x y : Reg) (n : Nat) (r : Fin 32) (c : Fin 64) : Prop :=
  ∃ k j : Nat, k < n ∧ j < 8 ∧ (s.readByte (s.i.toNat + k)).getLsbD (7 - j) = true
    ∧ landsOn s.cfg.drawEdge 64 ((s.getV x).toNat % 64) j = c.val
    ∧ landsOn s.cfg.drawEdge 32 ((s.getV y).toNat % 32) k = r.val

/-! ## Invariants -/

/-- The memory list is in its canonical form: strictly rising addresses below 4096, no byte equal to its reset value. -/
def State.MemoryCanonical (s : State) : Prop := Memory.wf s.cfg s.mem = true

/-- R26's derived bounds: `pc` never exceeds 0x10FE and a stack slot never 4096. -/
def State.PcStackInRange (s : State) : Prop :=
  s.pc.toNat ≤ 0x10FE ∧ ∀ j : Fin 16, s.stack[j.val].toNat ≤ 4096

/-- A recorded fault names the instruction `pc` still stands on, and the condition of its cause still holds (R213, R214,
R215, R218). -/
def State.LatchJustified (s : State) : Prop :=
  match s.fault with
  | none => True
  | some r =>
    r.addr = s.pc ∧
      if s.pc.toNat > 4094 then r.cause = .fetchBounds ∧ r.opcode = 0
      else r.opcode = s.readWord s.pc.toNat ∧ expectedFault (decodeWord r.opcode) s = some r.cause

end Sys2Proof.Machine
end

