-- ==== Sys2Proof/Certificates/Slice0/Obligations.lean ====
section
/-!
DEFINITION. The statements for the provers, each with the rule of spec/ it formalises.
-/

open Sys2Proof Sys2Proof.Machine

/-! ## Reset and boot -/

/-- R36: reset leaves every piece of state at the value of its table, on a machine of any parameters and whatever the host
is about to present; `State.reset` is that state for the default parameters. R22: the font is the machine's parameter
FONT, row `r` of glyph `g + 1` at `0x050 + 5 * (g + 1) + r`, glyph 0 fixed. That FONT is a parameter is the spec's own
decision D6, the zeros of I and op its D19, the empty latch its D7 (notes/assumptions/1, 3, 12 and 7). -/
def Obligations.ResetLeavesTheStatedValues : Prop :=
  State.reset = State.resetWith Config.default [] ∧
  ∀ (c : Config) (inputs : List Input) (s : State), s = State.resetWith c inputs →
    (∀ a, a < 0x050 ∨ (0x0A0 ≤ a ∧ a < 4096) → s.readByte a = 0) ∧
    (∀ k, k < 80 → s.readByte (0x050 + k) = fontByte c k) ∧
    s.readBytes 0x050 5 = [0xF0, 0x90, 0x90, 0x90, 0xF0] ∧
    (∀ (g : Fin 15) (r : Fin 5), s.readByte (0x050 + 5 * (g.val + 1) + r.val) = c.font.glyphs[g.val][r.val]) ∧
    (∀ r, s.getV r = 0) ∧ s.i = 0 ∧ s.pc = 0x0200 ∧ (∀ j : Fin 16, s.stack[j.val] = 0) ∧ s.sp.val = 0 ∧
    s.dt = 0 ∧ s.st = 0 ∧ (∀ r c, Frame.cell s.fb r c = false) ∧ s.keys = 0 ∧ s.op = 0 ∧ s.fault = none

/-- The reset state meets each invariant that the steps are stated to keep: memory in the canonical form, which is the
model's (notes/assumptions/6); `pc` and the stack slots within the bounds the spec derives under R26; the latch justified,
empty at reset, by the spec's own decision D7 (notes/assumptions/7). -/
def Obligations.ResetMeetsEveryInvariant : Prop :=
  ∀ (c : Config) (inputs : List Input),
    (State.resetWith c inputs).MemoryCanonical ∧ (State.resetWith c inputs).PcStackInRange ∧
    (State.resetWith c inputs).LatchJustified

/-- R240, R228: a reset from any state, a halted one too, clears the latch, forgets the program image and gives every other
piece of state its reset value. That the parameters, the host's list and the count of free draws stay is the model's choice
(notes/assumptions/15). -/
def Obligations.HostResetRestoresTheResetState : Prop :=
  ∀ s : State, s.hostReset.fault = none ∧ s.hostReset.cfg = s.cfg ∧
    (∀ a, s.hostReset.readByte a = initialByte s.cfg a) ∧
    { s.hostReset with draws := 0 } = State.resetWith s.cfg s.inputs

/-- R244, R245: the image is placed from 0x200 on, byte `k` at `0x200 + k`, all else as after reset; an image of more than
3584 bytes is refused whole. That the image is a parameter of the initial state is the spec's own decision D22; that loading
is a function on states, and that memory is a list in canonical form, are the model's choices (notes/assumptions/15 and 6). -/
def Obligations.BootPlacesTheImageOrRefusesIt : Prop :=
  ∀ (c : Config) (image : List Byte) (inputs : List Input),
    (image.length ≤ 3584 → ∃ s, boot c image inputs = some s ∧
      (∀ k (h : k < image.length), s.readByte (0x200 + k) = image[k]) ∧
      (∀ a, a < 0x200 ∨ 0x200 + image.length ≤ a → s.readByte a = initialByte c a) ∧
      s.MemoryCanonical ∧ s = { State.resetWith c inputs with mem := s.mem }) ∧
    (3584 < image.length → boot c image inputs = none)

/-! ## Decoding -/

/-- Decode and encode agree: the word of a well-formed instruction, and its two bytes in memory order, decode to it, for
every value of every operand (R72, R75). That the no-op carries its word and encodes to it is the model's choice
(notes/assumptions/13). -/
def Obligations.DecodeOfEncodeIsTheInstruction : Prop :=
  ∀ i : Instr, WellFormed i → decodeWord (encode i) = i ∧ decode (bytesOfWord (encode i)) = .ok (i, [])

/-- R75, R79: the decoder selects the one row of the table whose mask and match the word meets, and the no-op when the word
meets none; what it selects is well-formed. That the decoder looks at the dispatch keys only is the spec's own decision D2
(notes/assumptions/11). -/
def Obligations.DecodeSelectsTheOneTableRow : Prop :=
  ∀ w : Word, WellFormed (decodeWord w) ∧
    match (decodeWord w).row with
    | some r => r ∈ opcodeTable ∧ ∀ r' ∈ opcodeTable, r'.selects w = true ↔ r' = r
    | none => decodeWord w = .nop w ∧ ∀ r' ∈ opcodeTable, r'.selects w = false

/-- R72: the operands of a decoded instruction are the fields of its word, by the extraction formulas of that rule. -/
def Obligations.OperandsAreTheFieldsOfTheWord : Prop :=
  ∀ w : Word,
    match decodeWord w with
    | .jp nnn | .call nnn | .ldI nnn | .jpV0 nnn => nnn.toNat = (w &&& 0xFFF).toNat
    | .seImm x kk | .sneImm x kk | .ldImm x kk | .addImm x kk | .rnd x kk =>
      x.val = ((w >>> 8) &&& 0xF).toNat ∧ kk.toNat = (w &&& 0xFF).toNat
    | .seReg x y | .ldReg x y | .orReg x y | .andReg x y | .xorReg x y | .addReg x y | .subReg x y | .subnReg x y
    | .sneReg x y => x.val = ((w >>> 8) &&& 0xF).toNat ∧ y.val = ((w >>> 4) &&& 0xF).toNat
    | .drw x y n =>
      x.val = ((w >>> 8) &&& 0xF).toNat ∧ y.val = ((w >>> 4) &&& 0xF).toNat ∧ n.val = (w &&& 0xF).toNat
    | .shr x | .shl x | .skp x | .sknp x | .ldVxDT x | .ldVxK x | .ldDTVx x | .ldSTVx x | .addIVx x | .ldFVx x | .ldBVx x
    | .ldMemVx x | .ldVxMem x => x.val = ((w >>> 8) &&& 0xF).toNat
    | .cls | .ret => True
    | .nop v => v = w

/-- R77: the words that select the no-op handler are exactly those of its table (that the decoder looks at the dispatch keys
only is the spec's own decision D2, notes/assumptions/11). -/
def Obligations.NoOpWordsAreExactlyTheListedOnes : Prop :=
  ∀ w : Word, (∃ v, decodeWord w = .nop v) ↔
    (w >>> 12 = 0x0 ∧ w &&& 0xF ∉ [0x0, 0xE]) ∨
    (w >>> 12 = 0x8 ∧ w &&& 0xF ∈ [0x8, 0x9, 0xA, 0xB, 0xC, 0xD, 0xF]) ∨
    (w >>> 12 = 0xE ∧ w &&& 0xF ∉ [0x1, 0xE]) ∨
    (w >>> 12 = 0xF ∧ w &&& 0xFF ∉ [0x07, 0x0A, 0x15, 0x18, 0x1E, 0x29, 0x33, 0x55, 0x65])

/-- R76 (the spec's own decision D2, notes/assumptions/11): the alias words select the handler of the canonical pattern,
whatever stands in the bits the dispatch does not look at; zero-filled memory executes as 00E0. -/
def Obligations.AliasWordsSelectTheCanonicalHandler : Prop :=
  (∀ m : Byte, decodeWord (0x0#4 ++ m ++ 0x0#4) = .cls ∧ decodeWord (0x0#4 ++ m ++ 0xE#4) = .ret) ∧
  (∀ x y n : Fin 16, decodeWord (wordOfNibbles 0x5 x y n) = .seReg x y ∧
    decodeWord (wordOfNibbles 0x9 x y n) = .sneReg x y) ∧
  (∀ x y : Fin 16, decodeWord (wordOfNibbles 0xE x y 0xE) = .skp x ∧ decodeWord (wordOfNibbles 0xE x y 0x1) = .sknp x) ∧
  (∀ x y : Fin 16, decodeWord (wordOfNibbles 0x8 x y 0x6) = .shr x ∧ decodeWord (wordOfNibbles 0x8 x y 0xE) = .shl x) ∧
  decodeWord 0x0000 = .cls

/-- Words written out from the spec's encodings (R75 and the vectors of 95_test_vectors.md), one or more of every family 0 to
F (R12: bits 15:12) and one of every row of the table. -/
def Obligations.WordsDecodeAsTheSpecWritesThem : Prop :=
  decodeWord 0x00E0 = .cls ∧ decodeWord 0x00EE = .ret ∧ decodeWord 0x1ABC = .jp 0xABC ∧
  decodeWord 0x2210 = .call 0x210 ∧ decodeWord 0x357F = .seImm 5 0x7F ∧ decodeWord 0x4580 = .sneImm 5 0x80 ∧
  decodeWord 0x5340 = .seReg 3 4 ∧ decodeWord 0x60EA = .ldImm 0 0xEA ∧ decodeWord 0x71FF = .addImm 1 0xFF ∧
  decodeWord 0x8EF0 = .ldReg 14 15 ∧ decodeWord 0x8011 = .orReg 0 1 ∧ decodeWord 0x8012 = .andReg 0 1 ∧
  decodeWord 0x8013 = .xorReg 0 1 ∧ decodeWord 0x8014 = .addReg 0 1 ∧ decodeWord 0x8F15 = .subReg 15 1 ∧
  decodeWord 0x8206 = .shr 2 ∧ decodeWord 0x8F17 = .subnReg 15 1 ∧ decodeWord 0x820E = .shl 2 ∧
  decodeWord 0x9340 = .sneReg 3 4 ∧ decodeWord 0xA300 = .ldI 0x300 ∧ decodeWord 0xB300 = .jpV0 0x300 ∧
  decodeWord 0xC30F = .rnd 3 0x0F ∧ decodeWord 0xD125 = .drw 1 2 5 ∧ decodeWord 0xE29E = .skp 2 ∧
  decodeWord 0xE2A1 = .sknp 2 ∧ decodeWord 0xF107 = .ldVxDT 1 ∧ decodeWord 0xF20A = .ldVxK 2 ∧
  decodeWord 0xF015 = .ldDTVx 0 ∧ decodeWord 0xF318 = .ldSTVx 3 ∧ decodeWord 0xF21E = .addIVx 2 ∧
  decodeWord 0xF029 = .ldFVx 0 ∧ decodeWord 0xF033 = .ldBVx 0 ∧ decodeWord 0xF355 = .ldMemVx 3 ∧
  decodeWord 0xF265 = .ldVxMem 2 ∧ decodeWord 0x801F = .nop 0x801F

/-- R50: a word is fetched big-endian, the byte at the lower address in the high half. -/
def Obligations.FetchIsBigEndian : Prop :=
  ∀ (s : State) (w : Word), s.fetch = some w →
    w.toNat = 256 * (s.readByte s.pc.toNat).toNat + (s.readByte (s.pc.toNat + 1)).toNat

/-! ## The Cycle -/

/-- A step runs the decoded instruction (R99): when the machine is not halted and the bytes at `pc` decode to a well-formed
`i`, the step is `exec i` on the sampled state with `op` the fetched word and `pc` at A + 2, followed by the timer step, or, if
the handler raised a fault, by the restoring of `op`. That `op` is restored is the model's choice of the two R215 allows
(notes/assumptions/9); that the timers step after the handler, and not after a fault, is the spec's own decision D14, what a
fault leaves its D7 (notes/assumptions/12 and 7); the sampling of the inputs is notes/assumptions/4 and 5. -/
def Obligations.StepRunsTheDecodedInstruction : Prop :=
  ∀ (s : State) (i : Instr), s.fault = none → s.pc.toNat ≤ 4094 →
    decode [s.readByte s.pc.toNat, s.readByte (s.pc.toNat + 1)] = .ok (i, []) → WellFormed i →
    step s =
      match exec i { s.sample with op := s.readWord s.pc.toNat, pc := s.pc + 2 } with
      | .next u =>
        .next (if u.fault = none then { u with dt := timerTick u.dt, st := timerTick u.st } else { u with op := s.op })
      | .fault r => .fault r
      | .refused r => .refused r

/-- R79, R94, R99: decoding cannot fail and every handler completes or raises; every step of every state answers a next
state, and so does every instruction in every state. That a fault is a next state with the latch set, and no fault outcome, is
deduced in the model (notes/assumptions/7) from the halted Cycle (R97) and the fault mechanism (R215, R216), the spec's own
decision D7; the fetch that fails (R213) is its D9 (notes/assumptions/12). -/
def Obligations.EveryStepAnswersANextState : Prop :=
  (∀ (i : Instr) (s : State), ∃ t, exec i s = .next t) ∧ ∀ s : State, ∃ t, step s = .next t

/-- R97, R216 (the spec's own decision D7, notes/assumptions/7; that a halted Cycle takes no input is the model's choice,
notes/assumptions/14): a halted machine does nothing, for any number of Cycles; reset clears the latch. -/
def Obligations.HaltedMachineDoesNothingUntilReset : Prop :=
  ∀ s : State, s.Halted → (∀ k, Sys2Proof.core.run k s = .next s) ∧ ¬ s.hostReset.Halted

/-- R213 (the spec's own decision D9, the record its D7; notes/assumptions/12 and 7): with `pc` above 4094 the fetch raises
FetchBounds, the address `pc` and opcode 0x0000 recorded, and nothing else of the machine changes. -/
def Obligations.FetchPastTheEndFaults : Prop :=
  ∀ s : State, s.fault = none → 4094 < s.pc.toNat →
    ∃ t, step s = .next t ∧ t.fault = some ⟨.fetchBounds, s.pc, 0⟩ ∧ SameMemory s t ∧ SameRegsBut [] s t ∧
      t = { s.sample with fault := t.fault }

/-- R218 (the codes, FetchBounds and KeyIndex are the spec's own decisions D8, D9, D10, the record its D7, the bounds check
its D11; notes/assumptions/7 and 12): the five causes, their codes, who raises each and when; no other instruction and no
other condition raises a fault. -/
def Obligations.FaultsAreExactlyTheListedOnes : Prop :=
  (∀ (i : Instr) (s t : State), s.fault = none → exec i s = .next t →
    t.fault = (expectedFault i s).map fun c => ⟨c, s.pc - 2, s.op⟩) ∧
  (∀ s t : State, s.fault = none → step s = .next t →
    t.fault.map FaultRecord.cause =
      if 4094 < s.pc.toNat then some .fetchBounds else expectedFault s.nextInstr s) ∧
  FaultCause.code .stackOverflow = 1 ∧ FaultCause.code .stackUnderflow = 2 ∧ FaultCause.code .memoryBounds = 3 ∧
  FaultCause.code .fetchBounds = 4 ∧ FaultCause.code .keyIndex = 5 ∧ ∀ s : State, s.fault = none → causePort s = 0

/-- R215 (the spec's own decision D7; that `op` keeps its old value is the model's choice of the two it allows,
notes/assumptions/9): a Cycle that faults changes nothing but the latch, which takes the cause, A and the fetched word or 0. -/
def Obligations.FaultingCycleChangesOnlyTheLatch : Prop :=
  ∀ (s t : State) (r : FaultRecord), s.fault = none → step s = .next t → t.fault = some r →
    r.addr = s.pc ∧ r.opcode = (if 4094 < s.pc.toNat then 0 else s.readWord s.pc.toNat) ∧
    t.mem = s.mem ∧ t.v = s.v ∧ t.i = s.i ∧ t.pc = s.pc ∧ t.stack = s.stack ∧ t.sp = s.sp ∧ t.dt = s.dt ∧ t.st = s.st ∧
    t.fb = s.fb ∧ t.op = s.op ∧ t = { s.sample with fault := some r }

/-- R95 (when the timers step is the spec's own decision D14, notes/assumptions/12): in every Cycle that does not fault each
timer ends one below what the handler left, floor 0; only Fx15 and Fx18 change what it starts from. -/
def Obligations.TimersStepOncePerCycle : Prop :=
  ∀ s t : State, s.fault = none → step s = .next t → t.fault = none →
    t.dt.toNat = (match s.nextInstr with | .ldDTVx x => (s.getV x).toNat | _ => s.dt.toNat) - 1 ∧
    t.st.toNat = (match s.nextInstr with | .ldSTVx x => (s.getV x).toNat | _ => s.st.toNat) - 1

/-- R26: the table of how each instruction leaves `pc`, as an offset from the address A it was fetched from; a faulting Cycle
leaves A. The slot 00EE reads is the spec's own decision D18, `pc` after a fault its D7, a `pc` of any parity its D15
(notes/assumptions/12 and 7). -/
def Obligations.PcAfterTheCycleIsAsTabled : Prop :=
  ∀ s t : State, s.fault = none → s.pc.toNat ≤ 4094 → step s = .next t →
    (t.fault = none → t.pc = pcAfter s.nextInstr s.pc s.sample) ∧ (t.fault ≠ none → t.pc = s.pc)

/-! ## Invariants of every step -/

/-- Every step keeps memory in its canonical form, all listed addresses below 4096: no store leaves the array. The canonical
form is the model's (notes/assumptions/6); the check before any access is the spec's own decision D11. -/
def Obligations.EveryStepKeepsMemoryCanonical : Prop :=
  ∀ s t : State, s.MemoryCanonical → step s = .next t → t.MemoryCanonical

/-- Every step keeps `pc` at most 0x10FE and every stack slot at most 4096: the bounds the spec derives for itself under
R26. -/
def Obligations.EveryStepKeepsPcAndStackInRange : Prop :=
  ∀ s t : State, s.PcStackInRange → step s = .next t → t.PcStackInRange

/-- Every step keeps the latch justified: a record names the instruction `pc` stands on and the condition of its cause
holds (R213, R214, R215, R216; the spec's own decision D7, notes/assumptions/7). -/
def Obligations.EveryStepKeepsTheLatchJustified : Prop :=
  ∀ s t : State, s.LatchJustified → step s = .next t → t.LatchJustified

/-- Two memory lists in canonical form that read alike at every address are the same list: equal memories are equal
data (notes/assumptions/6). -/
def Obligations.CanonicalMemoriesThatReadAlikeAreEqual : Prop :=
  ∀ (c : Config) (m m' : Memory), Memory.wf c m = true → Memory.wf c m' = true →
    (∀ a, a < 4096 → Memory.read c m a = Memory.read c m' a) → m = m'

/-! ## Who may change what -/

/-- R53, R169: only Fx33 and Fx55 change memory, only 00E0 and Dxyn the framebuffer. -/
def Obligations.OnlyStoresTouchMemoryOnlyDrawsTheScreen : Prop :=
  ∀ (i : Instr) (s t : State), exec i s = .next t →
    ((∀ x, i ≠ .ldBVx x) → (∀ x, i ≠ .ldMemVx x) → t.mem = s.mem ∧ SameMemory s t) ∧
    (i ≠ .cls → (∀ x y n, i ≠ .drw x y n) → t.fb = s.fb)

/-- R20, R25, R27, R28, R29: only Annn, Fx1E, Fx29 change I; only 2nnn a stack slot; only 2nnn and 00EE SP; only Fx15 sets DT
and only Fx18 sets ST (the timer step apart). I unchanged by Fx55 and Fx65 is the spec's own decision D12, the slots' rule
its D18 (notes/assumptions/12). -/
def Obligations.OnlyTheirWritersTouchIndexStackTimers : Prop :=
  ∀ (i : Instr) (s t : State), exec i s = .next t →
    ((∀ a, i ≠ .ldI a) → (∀ x, i ≠ .addIVx x) → (∀ x, i ≠ .ldFVx x) → t.i = s.i) ∧
    ((∀ a, i ≠ .call a) → t.stack = s.stack) ∧
    ((∀ a, i ≠ .call a) → i ≠ .ret → t.sp = s.sp) ∧
    ((∀ x, i ≠ .ldDTVx x) → t.dt = s.dt) ∧ ((∀ x, i ≠ .ldSTVx x) → t.st = s.st)

/-- R31, R32, R37: no instruction writes the keypad, the opcode latch or a parameter or input of the machine; a step changes
the keypad only to what the host presents. That the parameters and the host's list stand in State is the model's choice
(notes/assumptions/1 and 4), the keypad as an input of each Cycle the spec's own decision D23. -/
def Obligations.NoInstructionWritesInputsOrParameters : Prop :=
  (∀ (i : Instr) (s t : State), exec i s = .next t →
    t.keys = s.keys ∧ t.op = s.op ∧ t.cfg = s.cfg ∧ t.rnd = s.rnd ∧ t.inputs = s.inputs ∧ t.draws = s.draws) ∧
  ∀ s t : State, step s = .next t →
    t.cfg = s.cfg ∧ (t.keys = s.keys ∨ ∃ p rest, s.inputs = p :: rest ∧ t.keys = p.keys ∧ t.inputs = rest)

/-- R23, R24: a V register changes only by the instructions the table lists for it; VF is written as a flag by six
instructions only, always with 0 or 1. VF last when it is also the destination, and left alone by the logic operations, are
the spec's own decisions D3 and D27 (notes/assumptions/12). -/
def Obligations.RegistersAndFlagChangeOnlyAsListed : Prop :=
  ∀ (i : Instr) (s t : State), exec i s = .next t →
    (∀ r, writesReg i r = false → (r = 15 → writesFlag i = false) → t.getV r = s.getV r) ∧
    (writesFlag i = true → expectedFault i s = none → t.getV 15 = 0 ∨ t.getV 15 = 1)

/-- R32 (the spec's own decision D19): nothing reads the opcode latch of an earlier Cycle: two states that differ only in
`op` step to states that differ at most in `op`, and to the same state when the Cycle completes. -/
def Obligations.OpcodeLatchIsUnobservable : Prop :=
  ∀ (s t : State) (w : Word), step s = .next t →
    ∃ t', step { s with op := w } = .next t' ∧ { t' with op := t.op } = t ∧ (s.fault = none → t.fault = none → t' = t)

/-- R98: the random byte reaches Cxkk only, the keypad Ex9E, ExA1 and Fx0A only: the Cycle of any other instruction ends in
the same state whatever they are, but for the fields that hold the inputs themselves. Both as inputs of the Cycle are the
spec's own decisions D13 and D23 (notes/assumptions/4 and 5). -/
def Obligations.InputsReachOnlyTheirReaders : Prop :=
  ∀ (s t : State) (keys keys' : BitVec 16) (rnd rnd' : Byte), s.fault = none → tick s keys rnd = .next t →
    ((∀ x kk, s.nextInstr ≠ .rnd x kk) → tick s keys rnd' = .next { t with rnd := rnd' }) ∧
    ((∀ x, s.nextInstr ≠ .skp x) → (∀ x, s.nextInstr ≠ .sknp x) → (∀ x, s.nextInstr ≠ .ldVxK x) →
      tick s keys' rnd = .next { t with keys := keys' })

/-! ## Register load, arithmetic, logic, shift, random -/

/-- R130, R132: 6xkk loads the immediate, 8xy0 copies a register; nothing else changes. -/
def Obligations.LoadImmediateAndCopySetTheRegister : Prop :=
  ∀ (s : State) (x y : Reg) (kk : Byte),
    (∃ t, exec (.ldImm x kk) s = .next t ∧ t.getV x = kk ∧ OnlyRegs [x] s t) ∧
    (∃ t, exec (.ldReg x y) s = .next t ∧ t.getV x = s.getV y ∧ OnlyRegs [x] s t)

/-- R131: 7xkk adds modulo 256 with no flag effect, VF included when it is the destination. -/
def Obligations.AddImmediateWrapsWithoutFlag : Prop :=
  ∀ (s : State) (x : Reg) (kk : Byte),
    ∃ t, exec (.addImm x kk) s = .next t ∧ (t.getV x).toNat = ((s.getV x).toNat + kk.toNat) % 256 ∧ OnlyRegs [x] s t

/-- R133, R134, R135: the bitwise operations, VF left as it was unless it is the destination: that they leave
VF is the spec's own decision D27 (notes/assumptions/12). -/
def Obligations.BitwiseOperationsLeaveTheFlag : Prop :=
  ∀ (s : State) (x y : Reg),
    (∃ t, exec (.orReg x y) s = .next t ∧ t.getV x = s.getV x ||| s.getV y ∧ OnlyRegs [x] s t) ∧
    (∃ t, exec (.andReg x y) s = .next t ∧ t.getV x = s.getV x &&& s.getV y ∧ OnlyRegs [x] s t) ∧
    (∃ t, exec (.xorReg x y) s = .next t ∧ t.getV x = s.getV x ^^^ s.getV y ∧ OnlyRegs [x] s t)

/-- R136: 8xy4, the sum modulo 256 and the carry in VF; with x = 15 the carry is what VF holds, by the spec's own decision D3
(R11, notes/assumptions/12). -/
def Obligations.AddSetsTheCarry : Prop :=
  ∀ (s : State) (x y : Reg),
    ∃ t, exec (.addReg x y) s = .next t ∧
      t.getV 15 = (if (s.getV x).toNat + (s.getV y).toNat > 255 then 1 else 0) ∧
      (x ≠ 15 → (t.getV x).toNat = ((s.getV x).toNat + (s.getV y).toNat) % 256) ∧ OnlyRegs [x, 15] s t

/-- R137, R139: 8xy5 and 8xy7, the difference modulo 256 and "no borrow" in VF, equal operands giving 1; with x = 15 the
flag is what VF holds, by the spec's own decision D3 (R11, notes/assumptions/12). -/
def Obligations.SubtractsSetNoBorrow : Prop :=
  ∀ (s : State) (x y : Reg),
    (∃ t, exec (.subReg x y) s = .next t ∧
      t.getV 15 = (if (s.getV x).toNat ≥ (s.getV y).toNat then 1 else 0) ∧
      (x ≠ 15 → (t.getV x).toNat = ((s.getV x).toNat + 256 - (s.getV y).toNat) % 256) ∧ OnlyRegs [x, 15] s t) ∧
    (∃ t, exec (.subnReg x y) s = .next t ∧
      t.getV 15 = (if (s.getV y).toNat ≥ (s.getV x).toNat then 1 else 0) ∧
      (x ≠ 15 → (t.getV x).toNat = ((s.getV y).toNat + 256 - (s.getV x).toNat) % 256) ∧ OnlyRegs [x, 15] s t)

/-- R138, R140: the shifts by one of V[x], the bit shifted out in VF; with x = 15 that bit is what VF holds.
That V[x] and not V[y] is shifted is the spec's own decision D27, that the bit remains at x = 15 its D3
(notes/assumptions/12). -/
def Obligations.ShiftsMoveByOneAndKeepTheBit : Prop :=
  ∀ (s : State) (x : Reg),
    (∃ t, exec (.shr x) s = .next t ∧ (t.getV 15).toNat = (s.getV x).toNat % 2 ∧
      (x ≠ 15 → (t.getV x).toNat = (s.getV x).toNat / 2) ∧ OnlyRegs [x, 15] s t) ∧
    (∃ t, exec (.shl x) s = .next t ∧ (t.getV 15).toNat = (s.getV x).toNat / 128 ∧
      (x ≠ 15 → (t.getV x).toNat = 2 * (s.getV x).toNat % 256) ∧ OnlyRegs [x, 15] s t)

/-- R142 (that the byte is an input is the spec's own decision D13, notes/assumptions/4 and 5): Cxkk writes this Cycle's
random byte masked by kk, for every byte the host may present. -/
def Obligations.RandomByteIsMasked : Prop :=
  (∀ (s : State) (x : Reg) (kk : Byte),
    ∃ t, exec (.rnd x kk) s = .next t ∧ t.getV x = s.rnd &&& kk ∧ OnlyRegs [x] s t) ∧
  ∀ (s : State) (x : Reg) (kk : Byte) (keys : BitVec 16) (rnd : Byte), s.fault = none → s.pc.toNat ≤ 4094 →
    s.nextInstr = .rnd x kk → ∃ t, tick s keys rnd = .next t ∧ t.getV x = rnd &&& kk

/-! ## Index register and memory -/

/-- R150, R151: Annn loads I; Fx1E adds modulo 65536 with no flag and no reduction to 12 bits. -/
def Obligations.IndexRegisterWrites : Prop :=
  ∀ (s : State) (x : Reg) (nnn : BitVec 12),
    (∃ t, exec (.ldI nnn) s = .next t ∧ t.i.toNat = nnn.toNat ∧ OnlyIndex s t) ∧
    (∃ t, exec (.addIVx x) s = .next t ∧ t.i.toNat = (s.i.toNat + (s.getV x).toNat) % 65536 ∧ OnlyIndex s t)

/-- R152: Fx29 points I at 0x050 + 5 * V[x], the whole 8-bit V[x] and no mask (the spec's own decision D24,
notes/assumptions/12). -/
def Obligations.GlyphAddressIsUnmasked : Prop :=
  ∀ (s : State) (x : Reg),
    ∃ t, exec (.ldFVx x) s = .next t ∧ t.i.toNat = 0x050 + 5 * (s.getV x).toNat ∧ OnlyIndex s t

/-- R153: Fx33 stores the three decimal digits at I, I + 1, I + 2 and nothing else; with I above 4093 it raises MemoryBounds
and stores nothing. The check before any access is the spec's own decision D11 (R55), the record and what a fault leaves its
D7 (notes/assumptions/12 and 7). -/
def Obligations.StoreDecimalDigits : Prop :=
  ∀ (s : State) (x : Reg),
    (s.MemoryCanonical → s.i.toNat ≤ 4093 → ∃ t, exec (.ldBVx x) s = .next t ∧
      (t.readByte s.i.toNat).toNat = (s.getV x).toNat / 100 ∧
      (t.readByte (s.i.toNat + 1)).toNat = (s.getV x).toNat / 10 % 10 ∧
      (t.readByte (s.i.toNat + 2)).toNat = (s.getV x).toNat % 10 ∧ OnlyBytes s.i.toNat 3 s t) ∧
    (4093 < s.i.toNat → ∃ t, exec (.ldBVx x) s = .next t ∧ Raised .memoryBounds s t)

/-- R154: Fx55 stores V0 to Vx at I to I + x and nothing else, I unchanged; beyond 4095 it raises MemoryBounds and stores
nothing. I unchanged is the spec's own decision D12, the check before any access its D11 (R55), the record and what a fault
leaves its D7 (notes/assumptions/12 and 7). -/
def Obligations.StoreRegistersToMemory : Prop :=
  ∀ (s : State) (x : Reg),
    (s.MemoryCanonical → s.i.toNat + x.val ≤ 4095 → ∃ t, exec (.ldMemVx x) s = .next t ∧
      (∀ r : Reg, r.val ≤ x.val → t.readByte (s.i.toNat + r.val) = s.getV r) ∧
      OnlyBytes s.i.toNat (x.val + 1) s t) ∧
    (4095 < s.i.toNat + x.val → ∃ t, exec (.ldMemVx x) s = .next t ∧ Raised .memoryBounds s t)

/-- R155: Fx65 loads V0 to Vx from I to I + x, the registers above x and I unchanged; beyond 4095 it raises MemoryBounds and
loads nothing. I unchanged is the spec's own decision D12, the check before any access its D11 (R55), the record and what a
fault leaves its D7 (notes/assumptions/12 and 7). -/
def Obligations.LoadRegistersFromMemory : Prop :=
  ∀ (s : State) (x : Reg),
    (s.i.toNat + x.val ≤ 4095 → ∃ t, exec (.ldVxMem x) s = .next t ∧
      (∀ r : Reg, t.getV r = if r.val ≤ x.val then s.readByte (s.i.toNat + r.val) else s.getV r) ∧
      SameMemory s t ∧ t = { s with v := t.v }) ∧
    (4095 < s.i.toNat + x.val → ∃ t, exec (.ldVxMem x) s = .next t ∧ Raised .memoryBounds s t)

/-- R155's round trip (it rests on I unchanged by Fx55, the spec's own decision D12, notes/assumptions/12): what Fx55 stored,
Fx65 with the same I loads back, whatever the registers hold in between. -/
def Obligations.StoreThenLoadRestoresTheRegisters : Prop :=
  ∀ (s t t' : State) (x : Reg), s.MemoryCanonical → s.i.toNat + x.val ≤ 4095 → exec (.ldMemVx x) s = .next t →
    t'.mem = t.mem → t'.cfg = t.cfg → t'.i = t.i →
    ∃ u, exec (.ldVxMem x) t' = .next u ∧ ∀ r : Reg, r.val ≤ x.val → u.getV r = s.getV r

/-- R152, R22: with V[x] = 0 and the first glyph not overwritten, Fx29 points I at the bytes F0 90 90 90 F0. -/
def Obligations.FontDigitZeroReadsBack : Prop :=
  ∀ (s : State) (x : Reg), s.getV x = 0 → (∀ a, 0x050 ≤ a → a < 0x055 → s.readByte a = initialByte s.cfg a) →
    ∃ t, exec (.ldFVx x) s = .next t ∧ t.readBytes t.i.toNat 5 = [0xF0, 0x90, 0x90, 0x90, 0xF0]

/-! ## Display -/

/-- R170: 00E0 unsets every cell and changes nothing else, VF included. -/
def Obligations.ClearScreenUnsetsEveryCell : Prop :=
  ∀ s : State, ∃ t, exec .cls s = .next t ∧ (∀ r c, Frame.cell t.fb r c = false) ∧ SameMemory s t ∧
    SameRegsBut [] s t ∧ t = { s with fb := t.fb }

/-- R172, R173, R174: Dxyn toggles exactly the cells a 1 bit of the sprite falls on under the machine's edge policy, each
once; VF is 1 when such a cell was set before and 0 otherwise, with n = 0 too; beyond memory it raises MemoryBounds. The edge
policies are the spec's own decision D4, bit 7 leftmost its D5, the check before any access its D11, the record its D7
(notes/assumptions/1, 7, 12 and 18). -/
def Obligations.DrawTogglesExactlyTheSpriteCells : Prop :=
  ∀ (s : State) (x y : Reg) (n : Fin 16),
    (n.val = 0 ∨ s.i.toNat + (n.val - 1) ≤ 4095 → ∃ t, exec (.drw x y n) s = .next t ∧
      (∀ r c, (SpriteCovers s x y n.val r c → Frame.cell t.fb r c = ! Frame.cell s.fb r c) ∧
        (¬ SpriteCovers s x y n.val r c → Frame.cell t.fb r c = Frame.cell s.fb r c)) ∧
      ((∃ r c, SpriteCovers s x y n.val r c ∧ Frame.cell s.fb r c = true) → t.getV 15 = 1) ∧
      ((¬ ∃ r c, SpriteCovers s x y n.val r c ∧ Frame.cell s.fb r c = true) → t.getV 15 = 0) ∧
      SameRegsBut [15] s t ∧ SameMemory s t ∧ t = { s with fb := t.fb, v := t.v }) ∧
    (0 < n.val → 4095 < s.i.toNat + (n.val - 1) → ∃ t, exec (.drw x y n) s = .next t ∧ Raised .memoryBounds s t)

/-- R174 (the spec's own decision D4, notes/assumptions/1): the two edge policies give the same result when the sprite lies
inside the grid. -/
def Obligations.EdgePoliciesAgreeInsideTheGrid : Prop :=
  ∀ (s : State) (x y : Reg) (n : Fin 16), (s.getV x).toNat % 64 ≤ 56 → (s.getV y).toNat % 32 + n.val ≤ 32 →
    ∃ t : State, exec (.drw x y n) { s with cfg := { s.cfg with drawEdge := .wrap } }
        = .next { t with cfg := { s.cfg with drawEdge := .wrap } } ∧
      exec (.drw x y n) { s with cfg := { s.cfg with drawEdge := .clip } }
        = .next { t with cfg := { s.cfg with drawEdge := .clip } }

/-- R172, R173, R175: drawing the same sprite at the same place twice restores the framebuffer; the second draw collides
exactly when the first had set some cell. It holds under both edge policies, the spec's own decision
D4, and rests on its bounds check D11 (notes/assumptions/1 and 12). -/
def Obligations.DrawingTwiceRestoresTheScreen : Prop :=
  ∀ (s t : State) (x y : Reg) (n : Fin 16), n.val = 0 ∨ s.i.toNat + (n.val - 1) ≤ 4095 →
    exec (.drw x y n) s = .next t → t.getV x = s.getV x → t.getV y = s.getV y →
    ∃ u, exec (.drw x y n) t = .next u ∧ u.fb = s.fb ∧
      (u.getV 15 = 1 ↔ ∃ r c, Frame.cell s.fb r c = false ∧ Frame.cell t.fb r c = true)

/-! ## Control transfer -/

/-- R112, R118: 1nnn jumps to nnn, Bnnn to nnn + V[0], the sum not reduced to 12 bits. -/
def Obligations.JumpsSetThePc : Prop :=
  ∀ (s : State) (nnn : BitVec 12),
    (∃ t, exec (.jp nnn) s = .next t ∧ t.pc.toNat = nnn.toNat ∧ OnlyPc s t) ∧
    (∃ t, exec (.jpV0 nnn) s = .next t ∧ t.pc.toNat = nnn.toNat + (s.getV 0).toNat ∧ OnlyPc s t)

/-- R114, R115, R116, R117: each skip adds 2 to the post-fetch `pc` when its condition holds, and changes nothing else. -/
def Obligations.SkipsAdvanceByTwoOnTheirCondition : Prop :=
  ∀ (s : State) (x y : Reg) (kk : Byte),
    (∃ t, exec (.seImm x kk) s = .next t ∧ t.pc = (if s.getV x = kk then s.pc + 2 else s.pc) ∧ OnlyPc s t) ∧
    (∃ t, exec (.sneImm x kk) s = .next t ∧ t.pc = (if s.getV x ≠ kk then s.pc + 2 else s.pc) ∧ OnlyPc s t) ∧
    (∃ t, exec (.seReg x y) s = .next t ∧ t.pc = (if s.getV x = s.getV y then s.pc + 2 else s.pc) ∧ OnlyPc s t) ∧
    (∃ t, exec (.sneReg x y) s = .next t ∧ t.pc = (if s.getV x ≠ s.getV y then s.pc + 2 else s.pc) ∧ OnlyPc s t)

/-- R113, R210: 2nnn pushes the post-fetch `pc` and jumps; at SP = 16 it raises StackOverflow and changes nothing.
Which slot the push writes is the spec's own decision D18 (R27), the record and `pc` back at the instruction its D7
(notes/assumptions/12 and 7). -/
def Obligations.CallPushesAndJumps : Prop :=
  ∀ (s : State) (nnn : BitVec 12),
    (s.sp.val < 16 → ∃ t, exec (.call nnn) s = .next t ∧
      (∀ j : Fin 16, t.stack[j.val] = if j.val = s.sp.val then s.pc else s.stack[j.val]) ∧ t.sp.val = s.sp.val + 1 ∧
      t.pc.toNat = nnn.toNat ∧ SameRegsBut [] s t ∧ SameMemory s t ∧
      t = { s with stack := t.stack, sp := t.sp, pc := t.pc }) ∧
    (s.sp.val = 16 → ∃ t, exec (.call nnn) s = .next t ∧ Raised .stackOverflow s t)

/-- R111, R211: 00EE pops into `pc`, the slot keeping its value; at SP = 0 it raises StackUnderflow and changes nothing.
Which slot the pop reads, and that it keeps its value, are the spec's own decision D18 (R27), the record and `pc` back at the
instruction its D7 (notes/assumptions/12 and 7). -/
def Obligations.ReturnPopsThePc : Prop :=
  ∀ s : State,
    (s.sp.val ≠ 0 → ∃ t, exec .ret s = .next t ∧ t.pc = s.stack[s.sp.val - 1] ∧ t.sp.val = s.sp.val - 1 ∧
      SameRegsBut [] s t ∧ SameMemory s t ∧ t = { s with sp := t.sp, pc := t.pc }) ∧
    (s.sp.val = 0 → ∃ t, exec .ret s = .next t ∧ Raised .stackUnderflow s t)

/-- R111, R113: `pc` after 00EE is the value the matching 2nnn pushed, the address after the call (that the
pop reads the slot the push wrote is the spec's own decision D18, notes/assumptions/12). -/
def Obligations.ReturnGoesToTheInstructionAfterTheCall : Prop :=
  ∀ (s t t' : State) (nnn : BitVec 12), s.sp.val < 16 → exec (.call nnn) s = .next t → t'.stack = t.stack →
    t'.sp = t.sp → ∃ u, exec .ret t' = .next u ∧ u.pc = s.pc ∧ u.sp = s.sp

/-! ## Keypad, timers, no-op -/

/-- R190, R191, R217: Ex9E skips when key V[x] is pressed, ExA1 when it is not; with V[x] above 15 both raise KeyIndex.
KeyIndex is the spec's own decision D10, the record and what a fault leaves its D7 (notes/assumptions/12 and 7). -/
def Obligations.KeySkipsTestTheNamedKey : Prop :=
  ∀ (s : State) (x : Reg),
    ((s.getV x).toNat ≤ 15 →
      (∃ t, exec (.skp x) s = .next t ∧
        t.pc = (if s.keys.getLsbD (s.getV x).toNat = true then s.pc + 2 else s.pc) ∧ OnlyPc s t) ∧
      (∃ t, exec (.sknp x) s = .next t ∧
        t.pc = (if s.keys.getLsbD (s.getV x).toNat = false then s.pc + 2 else s.pc) ∧ OnlyPc s t)) ∧
    (15 < (s.getV x).toNat →
      (∃ t, exec (.skp x) s = .next t ∧ Raised .keyIndex s t) ∧ (∃ t, exec (.sknp x) s = .next t ∧ Raised .keyIndex s t))

/-- R192: Fx0A with no key pressed puts `pc` back on itself and changes nothing else; otherwise V[x] takes the least pressed
key. -/
def Obligations.WaitForKeyStallsOrTakesTheLeastKey : Prop :=
  ∀ (s : State) (x : Reg),
    (s.keys = 0 → ∃ t, exec (.ldVxK x) s = .next t ∧ t.pc = s.pc - 2 ∧ OnlyPc s t) ∧
    (s.keys ≠ 0 → ∃ (t : State) (k : Fin 16), exec (.ldVxK x) s = .next t ∧ (t.getV x).toNat = k.val ∧
      s.keys.getLsbD k.val = true ∧ (∀ j : Fin 16, j < k → s.keys.getLsbD j.val = false) ∧ OnlyRegs [x] s t)

/-- R193, R194, R195: Fx07 reads DT, Fx15 and Fx18 set DT and ST to V[x], and nothing else changes. -/
def Obligations.TimerInstructionsMoveTheByte : Prop :=
  ∀ (s : State) (x : Reg),
    (∃ t, exec (.ldVxDT x) s = .next t ∧ t.getV x = s.dt ∧ OnlyRegs [x] s t) ∧
    (∃ t, exec (.ldDTVx x) s = .next t ∧ t.dt = s.getV x ∧ SameRegsBut [] s t ∧ SameMemory s t ∧
      t = { s with dt := t.dt }) ∧
    (∃ t, exec (.ldSTVx x) s = .next t ∧ t.st = s.getV x ∧ SameRegsBut [] s t ∧ SameMemory s t ∧
      t = { s with st := t.st })

/-- R96: the no-op handler does nothing, and its Cycle advances `pc` by 2, steps the timers and changes nothing else but the
opcode latch, which takes the fetched word as in every Cycle (R91). That the timers step in it too is the spec's own decision D14, that the inputs are sampled first the model's form
(notes/assumptions/12, 4 and 5). -/
def Obligations.NoOpOnlyAdvances : Prop :=
  (∀ (s : State) (w : Word), exec (.nop w) s = .next s) ∧
  ∀ (s : State) (w : Word), s.fault = none → s.pc.toNat ≤ 4094 → s.nextInstr = .nop w →
    ∃ t, step s = .next t ∧ t.op = w ∧ t.pc = s.pc + 2 ∧ t.dt.toNat = s.dt.toNat - 1 ∧ t.st.toNat = s.st.toNat - 1 ∧
      SameRegsBut [] s t ∧ SameMemory s t ∧ t = { s.sample with op := t.op, pc := t.pc, dt := t.dt, st := t.st }

/-- R112, R250 (the end of a run is the spec's own decision D26, when the timers step its D14; notes/assumptions/12): on a
jump to itself every Cycle leaves the machine as it is but for its timers, which run down one a Cycle and stay at 0; after 255
Cycles the end of the run is reached. -/
def Obligations.SelfJumpOnlyRunsTheTimersDown : Prop :=
  ∀ (s : State) (k : Nat), s.AtSelfJump →
    ∃ t : State, Sys2Proof.core.run k s = .next t ∧ t.AtSelfJump ∧ t.dt.toNat = s.dt.toNat - k ∧
      t.st.toNat = s.st.toNat - k ∧ (255 ≤ k → t.AtEndOfRun) ∧
      t = { s with op := t.op, dt := t.dt, st := t.st, keys := t.keys, rnd := t.rnd, inputs := t.inputs, draws := t.draws }
end

