-- ==== Sys2Proof/Laws/Decode.lean ====
section
/-!
SUPPORT. The fields and the words of the encoding as numbers, one lemma per field and per word builder.
-/

namespace Sys2Proof

theorem nibble_toNat (w : Word) (lo : Nat) : (nibble w lo).toNat = w.toNat / 2 ^ lo % 16 := by
  simp [nibble, BitVec.extractLsb'_toNat, Nat.shiftRight_eq_div_pow]

theorem family_toNat (w : Word) : (family w).toNat = w.toNat / 4096 := by
  have := w.isLt
  rw [family, nibble_toNat]; omega

theorem fieldX_val (w : Word) : (fieldX w).val = w.toNat / 256 % 16 := nibble_toNat w 8

theorem fieldY_val (w : Word) : (fieldY w).val = w.toNat / 16 % 16 := nibble_toNat w 4

theorem fieldN_val (w : Word) : (fieldN w).val = w.toNat % 16 := by
  have h := nibble_toNat w 0
  rw [pow_zero, Nat.div_one] at h
  exact h

theorem fieldKK_toNat (w : Word) : (fieldKK w).toNat = w.toNat % 256 := by
  simp [fieldKK, BitVec.extractLsb'_toNat]

theorem fieldNNN_toNat (w : Word) : (fieldNNN w).toNat = w.toNat % 4096 := by
  simp [fieldNNN, BitVec.extractLsb'_toNat]

/-- Concatenation as a number: the first operand in the high bits (R8). -/
theorem append_toNat {n m : Nat} (a : BitVec n) (b : BitVec m) : (a ++ b).toNat = a.toNat * 2 ^ m + b.toNat := by
  rw [BitVec.toNat_append, ← Nat.shiftLeft_add_eq_or_of_lt b.isLt, Nat.shiftLeft_eq]

theorem wordOfBytes_toNat (hi lo : Byte) : (wordOfBytes hi lo).toNat = 256 * hi.toNat + lo.toNat := by
  rw [wordOfBytes, append_toNat]; omega

theorem wordOfNibbles_toNat (f x y k : Fin 16) :
    (wordOfNibbles f x y k).toNat = f.val * 4096 + x.val * 256 + y.val * 16 + k.val := by
  unfold wordOfNibbles
  rw [append_toNat, append_toNat, append_toNat]
  simp only [BitVec.toNat_ofFin]
  omega

theorem wordOfAddress_toNat (f : Fin 16) (nnn : BitVec 12) :
    (wordOfAddress f nnn).toNat = f.val * 4096 + nnn.toNat := by
  unfold wordOfAddress
  rw [append_toNat]
  simp only [BitVec.toNat_ofFin]
  omega

theorem wordOfImmediate_toNat (f x : Fin 16) (kk : Byte) :
    (wordOfImmediate f x kk).toNat = f.val * 4096 + x.val * 256 + kk.toNat := by
  unfold wordOfImmediate
  rw [append_toNat, append_toNat]
  simp only [BitVec.toNat_ofFin]
  omega

end Sys2Proof
end

