-- ==== Sys2Proof/Laws/State.lean ====
section
/-!
SUPPORT. One lemma per field per update of the state, so that no proof unfolds a record update.
-/

namespace Sys2Proof.Machine

/-! ### `writeByte` -/

@[simp] theorem State.writeByte_mem (s : State) (a : Nat) (b : Byte) :
    (s.writeByte a b).mem = Memory.write s.cfg s.mem a b := rfl
@[simp] theorem State.writeByte_v (s : State) (a : Nat) (b : Byte) : (s.writeByte a b).v = s.v := rfl
@[simp] theorem State.writeByte_i (s : State) (a : Nat) (b : Byte) : (s.writeByte a b).i = s.i := rfl
@[simp] theorem State.writeByte_pc (s : State) (a : Nat) (b : Byte) : (s.writeByte a b).pc = s.pc := rfl
@[simp] theorem State.writeByte_stack (s : State) (a : Nat) (b : Byte) : (s.writeByte a b).stack = s.stack := rfl
@[simp] theorem State.writeByte_sp (s : State) (a : Nat) (b : Byte) : (s.writeByte a b).sp = s.sp := rfl
@[simp] theorem State.writeByte_dt (s : State) (a : Nat) (b : Byte) : (s.writeByte a b).dt = s.dt := rfl
@[simp] theorem State.writeByte_st (s : State) (a : Nat) (b : Byte) : (s.writeByte a b).st = s.st := rfl
@[simp] theorem State.writeByte_fb (s : State) (a : Nat) (b : Byte) : (s.writeByte a b).fb = s.fb := rfl
@[simp] theorem State.writeByte_keys (s : State) (a : Nat) (b : Byte) : (s.writeByte a b).keys = s.keys := rfl
@[simp] theorem State.writeByte_op (s : State) (a : Nat) (b : Byte) : (s.writeByte a b).op = s.op := rfl
@[simp] theorem State.writeByte_fault (s : State) (a : Nat) (b : Byte) : (s.writeByte a b).fault = s.fault := rfl
@[simp] theorem State.writeByte_cfg (s : State) (a : Nat) (b : Byte) : (s.writeByte a b).cfg = s.cfg := rfl
@[simp] theorem State.writeByte_rnd (s : State) (a : Nat) (b : Byte) : (s.writeByte a b).rnd = s.rnd := rfl
@[simp] theorem State.writeByte_inputs (s : State) (a : Nat) (b : Byte) : (s.writeByte a b).inputs = s.inputs := rfl
@[simp] theorem State.writeByte_draws (s : State) (a : Nat) (b : Byte) : (s.writeByte a b).draws = s.draws := rfl
@[simp] theorem State.writeByte_getV (s : State) (a : Nat) (b : Byte) (q : Reg) :
    (s.writeByte a b).getV q = s.getV q := rfl

/-! ### `setV` -/

@[simp] theorem State.setV_mem (s : State) (r : Reg) (b : Byte) : (s.setV r b).mem = s.mem := rfl
@[simp] theorem State.setV_v (s : State) (r : Reg) (b : Byte) : (s.setV r b).v = s.v.set r.val b := rfl
@[simp] theorem State.setV_i (s : State) (r : Reg) (b : Byte) : (s.setV r b).i = s.i := rfl
@[simp] theorem State.setV_pc (s : State) (r : Reg) (b : Byte) : (s.setV r b).pc = s.pc := rfl
@[simp] theorem State.setV_stack (s : State) (r : Reg) (b : Byte) : (s.setV r b).stack = s.stack := rfl
@[simp] theorem State.setV_sp (s : State) (r : Reg) (b : Byte) : (s.setV r b).sp = s.sp := rfl
@[simp] theorem State.setV_dt (s : State) (r : Reg) (b : Byte) : (s.setV r b).dt = s.dt := rfl
@[simp] theorem State.setV_st (s : State) (r : Reg) (b : Byte) : (s.setV r b).st = s.st := rfl
@[simp] theorem State.setV_fb (s : State) (r : Reg) (b : Byte) : (s.setV r b).fb = s.fb := rfl
@[simp] theorem State.setV_keys (s : State) (r : Reg) (b : Byte) : (s.setV r b).keys = s.keys := rfl
@[simp] theorem State.setV_op (s : State) (r : Reg) (b : Byte) : (s.setV r b).op = s.op := rfl
@[simp] theorem State.setV_fault (s : State) (r : Reg) (b : Byte) : (s.setV r b).fault = s.fault := rfl
@[simp] theorem State.setV_cfg (s : State) (r : Reg) (b : Byte) : (s.setV r b).cfg = s.cfg := rfl
@[simp] theorem State.setV_rnd (s : State) (r : Reg) (b : Byte) : (s.setV r b).rnd = s.rnd := rfl
@[simp] theorem State.setV_inputs (s : State) (r : Reg) (b : Byte) : (s.setV r b).inputs = s.inputs := rfl
@[simp] theorem State.setV_draws (s : State) (r : Reg) (b : Byte) : (s.setV r b).draws = s.draws := rfl
@[simp] theorem State.setV_readByte (s : State) (r : Reg) (b : Byte) (k : Nat) :
    (s.setV r b).readByte k = s.readByte k := rfl

/-! ### `setVF` -/

@[simp] theorem State.setVF_mem (s : State) (b : Byte) : (s.setVF b).mem = s.mem := rfl
@[simp] theorem State.setVF_v (s : State) (b : Byte) : (s.setVF b).v = s.v.set 15 b := rfl
@[simp] theorem State.setVF_i (s : State) (b : Byte) : (s.setVF b).i = s.i := rfl
@[simp] theorem State.setVF_pc (s : State) (b : Byte) : (s.setVF b).pc = s.pc := rfl
@[simp] theorem State.setVF_stack (s : State) (b : Byte) : (s.setVF b).stack = s.stack := rfl
@[simp] theorem State.setVF_sp (s : State) (b : Byte) : (s.setVF b).sp = s.sp := rfl
@[simp] theorem State.setVF_dt (s : State) (b : Byte) : (s.setVF b).dt = s.dt := rfl
@[simp] theorem State.setVF_st (s : State) (b : Byte) : (s.setVF b).st = s.st := rfl
@[simp] theorem State.setVF_fb (s : State) (b : Byte) : (s.setVF b).fb = s.fb := rfl
@[simp] theorem State.setVF_keys (s : State) (b : Byte) : (s.setVF b).keys = s.keys := rfl
@[simp] theorem State.setVF_op (s : State) (b : Byte) : (s.setVF b).op = s.op := rfl
@[simp] theorem State.setVF_fault (s : State) (b : Byte) : (s.setVF b).fault = s.fault := rfl
@[simp] theorem State.setVF_cfg (s : State) (b : Byte) : (s.setVF b).cfg = s.cfg := rfl
@[simp] theorem State.setVF_rnd (s : State) (b : Byte) : (s.setVF b).rnd = s.rnd := rfl
@[simp] theorem State.setVF_inputs (s : State) (b : Byte) : (s.setVF b).inputs = s.inputs := rfl
@[simp] theorem State.setVF_draws (s : State) (b : Byte) : (s.setVF b).draws = s.draws := rfl
@[simp] theorem State.setVF_readByte (s : State) (b : Byte) (k : Nat) : (s.setVF b).readByte k = s.readByte k := rfl

/-! ### `setResultFlag` -/

@[simp] theorem State.setResultFlag_mem (s : State) (x : Reg) (b f : Byte) :
    (s.setResultFlag x b f).mem = s.mem := rfl
@[simp] theorem State.setResultFlag_v (s : State) (x : Reg) (b f : Byte) :
    (s.setResultFlag x b f).v = (s.v.set x.val b).set 15 f := rfl
@[simp] theorem State.setResultFlag_i (s : State) (x : Reg) (b f : Byte) : (s.setResultFlag x b f).i = s.i := rfl
@[simp] theorem State.setResultFlag_pc (s : State) (x : Reg) (b f : Byte) : (s.setResultFlag x b f).pc = s.pc := rfl
@[simp] theorem State.setResultFlag_stack (s : State) (x : Reg) (b f : Byte) :
    (s.setResultFlag x b f).stack = s.stack := rfl
@[simp] theorem State.setResultFlag_sp (s : State) (x : Reg) (b f : Byte) : (s.setResultFlag x b f).sp = s.sp := rfl
@[simp] theorem State.setResultFlag_dt (s : State) (x : Reg) (b f : Byte) : (s.setResultFlag x b f).dt = s.dt := rfl
@[simp] theorem State.setResultFlag_st (s : State) (x : Reg) (b f : Byte) : (s.setResultFlag x b f).st = s.st := rfl
@[simp] theorem State.setResultFlag_fb (s : State) (x : Reg) (b f : Byte) : (s.setResultFlag x b f).fb = s.fb := rfl
@[simp] theorem State.setResultFlag_keys (s : State) (x : Reg) (b f : Byte) :
    (s.setResultFlag x b f).keys = s.keys := rfl
@[simp] theorem State.setResultFlag_op (s : State) (x : Reg) (b f : Byte) : (s.setResultFlag x b f).op = s.op := rfl
@[simp] theorem State.setResultFlag_fault (s : State) (x : Reg) (b f : Byte) :
    (s.setResultFlag x b f).fault = s.fault := rfl
@[simp] theorem State.setResultFlag_cfg (s : State) (x : Reg) (b f : Byte) :
    (s.setResultFlag x b f).cfg = s.cfg := rfl
@[simp] theorem State.setResultFlag_rnd (s : State) (x : Reg) (b f : Byte) :
    (s.setResultFlag x b f).rnd = s.rnd := rfl
@[simp] theorem State.setResultFlag_inputs (s : State) (x : Reg) (b f : Byte) :
    (s.setResultFlag x b f).inputs = s.inputs := rfl
@[simp] theorem State.setResultFlag_draws (s : State) (x : Reg) (b f : Byte) :
    (s.setResultFlag x b f).draws = s.draws := rfl
@[simp] theorem State.setResultFlag_readByte (s : State) (x : Reg) (b f : Byte) (k : Nat) :
    (s.setResultFlag x b f).readByte k = s.readByte k := rfl

/-! ### `setI` -/

@[simp] theorem State.setI_mem (s : State) (w : Word) : (s.setI w).mem = s.mem := rfl
@[simp] theorem State.setI_v (s : State) (w : Word) : (s.setI w).v = s.v := rfl
@[simp] theorem State.setI_i (s : State) (w : Word) : (s.setI w).i = w := rfl
@[simp] theorem State.setI_pc (s : State) (w : Word) : (s.setI w).pc = s.pc := rfl
@[simp] theorem State.setI_stack (s : State) (w : Word) : (s.setI w).stack = s.stack := rfl
@[simp] theorem State.setI_sp (s : State) (w : Word) : (s.setI w).sp = s.sp := rfl
@[simp] theorem State.setI_dt (s : State) (w : Word) : (s.setI w).dt = s.dt := rfl
@[simp] theorem State.setI_st (s : State) (w : Word) : (s.setI w).st = s.st := rfl
@[simp] theorem State.setI_fb (s : State) (w : Word) : (s.setI w).fb = s.fb := rfl
@[simp] theorem State.setI_keys (s : State) (w : Word) : (s.setI w).keys = s.keys := rfl
@[simp] theorem State.setI_op (s : State) (w : Word) : (s.setI w).op = s.op := rfl
@[simp] theorem State.setI_fault (s : State) (w : Word) : (s.setI w).fault = s.fault := rfl
@[simp] theorem State.setI_cfg (s : State) (w : Word) : (s.setI w).cfg = s.cfg := rfl
@[simp] theorem State.setI_rnd (s : State) (w : Word) : (s.setI w).rnd = s.rnd := rfl
@[simp] theorem State.setI_inputs (s : State) (w : Word) : (s.setI w).inputs = s.inputs := rfl
@[simp] theorem State.setI_draws (s : State) (w : Word) : (s.setI w).draws = s.draws := rfl
@[simp] theorem State.setI_getV (s : State) (w : Word) (q : Reg) : (s.setI w).getV q = s.getV q := rfl
@[simp] theorem State.setI_readByte (s : State) (w : Word) (k : Nat) : (s.setI w).readByte k = s.readByte k := rfl

/-! ### `setDT` -/

@[simp] theorem State.setDT_mem (s : State) (b : Byte) : (s.setDT b).mem = s.mem := rfl
@[simp] theorem State.setDT_v (s : State) (b : Byte) : (s.setDT b).v = s.v := rfl
@[simp] theorem State.setDT_i (s : State) (b : Byte) : (s.setDT b).i = s.i := rfl
@[simp] theorem State.setDT_pc (s : State) (b : Byte) : (s.setDT b).pc = s.pc := rfl
@[simp] theorem State.setDT_stack (s : State) (b : Byte) : (s.setDT b).stack = s.stack := rfl
@[simp] theorem State.setDT_sp (s : State) (b : Byte) : (s.setDT b).sp = s.sp := rfl
@[simp] theorem State.setDT_dt (s : State) (b : Byte) : (s.setDT b).dt = b := rfl
@[simp] theorem State.setDT_st (s : State) (b : Byte) : (s.setDT b).st = s.st := rfl
@[simp] theorem State.setDT_fb (s : State) (b : Byte) : (s.setDT b).fb = s.fb := rfl
@[simp] theorem State.setDT_keys (s : State) (b : Byte) : (s.setDT b).keys = s.keys := rfl
@[simp] theorem State.setDT_op (s : State) (b : Byte) : (s.setDT b).op = s.op := rfl
@[simp] theorem State.setDT_fault (s : State) (b : Byte) : (s.setDT b).fault = s.fault := rfl
@[simp] theorem State.setDT_cfg (s : State) (b : Byte) : (s.setDT b).cfg = s.cfg := rfl
@[simp] theorem State.setDT_rnd (s : State) (b : Byte) : (s.setDT b).rnd = s.rnd := rfl
@[simp] theorem State.setDT_inputs (s : State) (b : Byte) : (s.setDT b).inputs = s.inputs := rfl
@[simp] theorem State.setDT_draws (s : State) (b : Byte) : (s.setDT b).draws = s.draws := rfl
@[simp] theorem State.setDT_getV (s : State) (b : Byte) (q : Reg) : (s.setDT b).getV q = s.getV q := rfl
@[simp] theorem State.setDT_readByte (s : State) (b : Byte) (k : Nat) : (s.setDT b).readByte k = s.readByte k := rfl

/-! ### `setST` -/

@[simp] theorem State.setST_mem (s : State) (b : Byte) : (s.setST b).mem = s.mem := rfl
@[simp] theorem State.setST_v (s : State) (b : Byte) : (s.setST b).v = s.v := rfl
@[simp] theorem State.setST_i (s : State) (b : Byte) : (s.setST b).i = s.i := rfl
@[simp] theorem State.setST_pc (s : State) (b : Byte) : (s.setST b).pc = s.pc := rfl
@[simp] theorem State.setST_stack (s : State) (b : Byte) : (s.setST b).stack = s.stack := rfl
@[simp] theorem State.setST_sp (s : State) (b : Byte) : (s.setST b).sp = s.sp := rfl
@[simp] theorem State.setST_dt (s : State) (b : Byte) : (s.setST b).dt = s.dt := rfl
@[simp] theorem State.setST_st (s : State) (b : Byte) : (s.setST b).st = b := rfl
@[simp] theorem State.setST_fb (s : State) (b : Byte) : (s.setST b).fb = s.fb := rfl
@[simp] theorem State.setST_keys (s : State) (b : Byte) : (s.setST b).keys = s.keys := rfl
@[simp] theorem State.setST_op (s : State) (b : Byte) : (s.setST b).op = s.op := rfl
@[simp] theorem State.setST_fault (s : State) (b : Byte) : (s.setST b).fault = s.fault := rfl
@[simp] theorem State.setST_cfg (s : State) (b : Byte) : (s.setST b).cfg = s.cfg := rfl
@[simp] theorem State.setST_rnd (s : State) (b : Byte) : (s.setST b).rnd = s.rnd := rfl
@[simp] theorem State.setST_inputs (s : State) (b : Byte) : (s.setST b).inputs = s.inputs := rfl
@[simp] theorem State.setST_draws (s : State) (b : Byte) : (s.setST b).draws = s.draws := rfl
@[simp] theorem State.setST_getV (s : State) (b : Byte) (q : Reg) : (s.setST b).getV q = s.getV q := rfl
@[simp] theorem State.setST_readByte (s : State) (b : Byte) (k : Nat) : (s.setST b).readByte k = s.readByte k := rfl

/-! ### `jump` -/

@[simp] theorem State.jump_mem (s : State) (w : Word) : (s.jump w).mem = s.mem := rfl
@[simp] theorem State.jump_v (s : State) (w : Word) : (s.jump w).v = s.v := rfl
@[simp] theorem State.jump_i (s : State) (w : Word) : (s.jump w).i = s.i := rfl
@[simp] theorem State.jump_pc (s : State) (w : Word) : (s.jump w).pc = w := rfl
@[simp] theorem State.jump_stack (s : State) (w : Word) : (s.jump w).stack = s.stack := rfl
@[simp] theorem State.jump_sp (s : State) (w : Word) : (s.jump w).sp = s.sp := rfl
@[simp] theorem State.jump_dt (s : State) (w : Word) : (s.jump w).dt = s.dt := rfl
@[simp] theorem State.jump_st (s : State) (w : Word) : (s.jump w).st = s.st := rfl
@[simp] theorem State.jump_fb (s : State) (w : Word) : (s.jump w).fb = s.fb := rfl
@[simp] theorem State.jump_keys (s : State) (w : Word) : (s.jump w).keys = s.keys := rfl
@[simp] theorem State.jump_op (s : State) (w : Word) : (s.jump w).op = s.op := rfl
@[simp] theorem State.jump_fault (s : State) (w : Word) : (s.jump w).fault = s.fault := rfl
@[simp] theorem State.jump_cfg (s : State) (w : Word) : (s.jump w).cfg = s.cfg := rfl
@[simp] theorem State.jump_rnd (s : State) (w : Word) : (s.jump w).rnd = s.rnd := rfl
@[simp] theorem State.jump_inputs (s : State) (w : Word) : (s.jump w).inputs = s.inputs := rfl
@[simp] theorem State.jump_draws (s : State) (w : Word) : (s.jump w).draws = s.draws := rfl
@[simp] theorem State.jump_getV (s : State) (w : Word) (q : Reg) : (s.jump w).getV q = s.getV q := rfl
@[simp] theorem State.jump_readByte (s : State) (w : Word) (k : Nat) : (s.jump w).readByte k = s.readByte k := rfl

/-! ### `latch` -/

@[simp] theorem State.latch_mem (s : State) (c : FaultCause) (a w : Word) : (s.latch c a w).mem = s.mem := rfl
@[simp] theorem State.latch_v (s : State) (c : FaultCause) (a w : Word) : (s.latch c a w).v = s.v := rfl
@[simp] theorem State.latch_i (s : State) (c : FaultCause) (a w : Word) : (s.latch c a w).i = s.i := rfl
@[simp] theorem State.latch_pc (s : State) (c : FaultCause) (a w : Word) : (s.latch c a w).pc = s.pc := rfl
@[simp] theorem State.latch_stack (s : State) (c : FaultCause) (a w : Word) : (s.latch c a w).stack = s.stack := rfl
@[simp] theorem State.latch_sp (s : State) (c : FaultCause) (a w : Word) : (s.latch c a w).sp = s.sp := rfl
@[simp] theorem State.latch_dt (s : State) (c : FaultCause) (a w : Word) : (s.latch c a w).dt = s.dt := rfl
@[simp] theorem State.latch_st (s : State) (c : FaultCause) (a w : Word) : (s.latch c a w).st = s.st := rfl
@[simp] theorem State.latch_fb (s : State) (c : FaultCause) (a w : Word) : (s.latch c a w).fb = s.fb := rfl
@[simp] theorem State.latch_keys (s : State) (c : FaultCause) (a w : Word) : (s.latch c a w).keys = s.keys := rfl
@[simp] theorem State.latch_op (s : State) (c : FaultCause) (a w : Word) : (s.latch c a w).op = s.op := rfl
@[simp] theorem State.latch_fault (s : State) (c : FaultCause) (a w : Word) :
    (s.latch c a w).fault = some ⟨c, a, w⟩ := rfl
@[simp] theorem State.latch_cfg (s : State) (c : FaultCause) (a w : Word) : (s.latch c a w).cfg = s.cfg := rfl
@[simp] theorem State.latch_rnd (s : State) (c : FaultCause) (a w : Word) : (s.latch c a w).rnd = s.rnd := rfl
@[simp] theorem State.latch_inputs (s : State) (c : FaultCause) (a w : Word) :
    (s.latch c a w).inputs = s.inputs := rfl
@[simp] theorem State.latch_draws (s : State) (c : FaultCause) (a w : Word) : (s.latch c a w).draws = s.draws := rfl
@[simp] theorem State.latch_getV (s : State) (c : FaultCause) (a w : Word) (q : Reg) :
    (s.latch c a w).getV q = s.getV q := rfl
@[simp] theorem State.latch_readByte (s : State) (c : FaultCause) (a w : Word) (k : Nat) :
    (s.latch c a w).readByte k = s.readByte k := rfl

/-! ### `advance` -/

@[simp] theorem State.advance_mem (s : State) (w : Word) : (s.advance w).mem = s.mem := rfl
@[simp] theorem State.advance_v (s : State) (w : Word) : (s.advance w).v = s.v := rfl
@[simp] theorem State.advance_i (s : State) (w : Word) : (s.advance w).i = s.i := rfl
@[simp] theorem State.advance_pc (s : State) (w : Word) : (s.advance w).pc = s.pc + 2 := rfl
@[simp] theorem State.advance_stack (s : State) (w : Word) : (s.advance w).stack = s.stack := rfl
@[simp] theorem State.advance_sp (s : State) (w : Word) : (s.advance w).sp = s.sp := rfl
@[simp] theorem State.advance_dt (s : State) (w : Word) : (s.advance w).dt = s.dt := rfl
@[simp] theorem State.advance_st (s : State) (w : Word) : (s.advance w).st = s.st := rfl
@[simp] theorem State.advance_fb (s : State) (w : Word) : (s.advance w).fb = s.fb := rfl
@[simp] theorem State.advance_keys (s : State) (w : Word) : (s.advance w).keys = s.keys := rfl
@[simp] theorem State.advance_op (s : State) (w : Word) : (s.advance w).op = w := rfl
@[simp] theorem State.advance_fault (s : State) (w : Word) : (s.advance w).fault = s.fault := rfl
@[simp] theorem State.advance_cfg (s : State) (w : Word) : (s.advance w).cfg = s.cfg := rfl
@[simp] theorem State.advance_rnd (s : State) (w : Word) : (s.advance w).rnd = s.rnd := rfl
@[simp] theorem State.advance_inputs (s : State) (w : Word) : (s.advance w).inputs = s.inputs := rfl
@[simp] theorem State.advance_draws (s : State) (w : Word) : (s.advance w).draws = s.draws := rfl
@[simp] theorem State.advance_getV (s : State) (w : Word) (q : Reg) : (s.advance w).getV q = s.getV q := rfl
@[simp] theorem State.advance_readByte (s : State) (w : Word) (k : Nat) :
    (s.advance w).readByte k = s.readByte k := rfl

/-! ### `timerStep` -/

@[simp] theorem State.timerStep_mem (s : State) : (s.timerStep).mem = s.mem := rfl
@[simp] theorem State.timerStep_v (s : State) : (s.timerStep).v = s.v := rfl
@[simp] theorem State.timerStep_i (s : State) : (s.timerStep).i = s.i := rfl
@[simp] theorem State.timerStep_pc (s : State) : (s.timerStep).pc = s.pc := rfl
@[simp] theorem State.timerStep_stack (s : State) : (s.timerStep).stack = s.stack := rfl
@[simp] theorem State.timerStep_sp (s : State) : (s.timerStep).sp = s.sp := rfl
@[simp] theorem State.timerStep_dt (s : State) : (s.timerStep).dt = timerTick s.dt := rfl
@[simp] theorem State.timerStep_st (s : State) : (s.timerStep).st = timerTick s.st := rfl
@[simp] theorem State.timerStep_fb (s : State) : (s.timerStep).fb = s.fb := rfl
@[simp] theorem State.timerStep_keys (s : State) : (s.timerStep).keys = s.keys := rfl
@[simp] theorem State.timerStep_op (s : State) : (s.timerStep).op = s.op := rfl
@[simp] theorem State.timerStep_fault (s : State) : (s.timerStep).fault = s.fault := rfl
@[simp] theorem State.timerStep_cfg (s : State) : (s.timerStep).cfg = s.cfg := rfl
@[simp] theorem State.timerStep_rnd (s : State) : (s.timerStep).rnd = s.rnd := rfl
@[simp] theorem State.timerStep_inputs (s : State) : (s.timerStep).inputs = s.inputs := rfl
@[simp] theorem State.timerStep_draws (s : State) : (s.timerStep).draws = s.draws := rfl
@[simp] theorem State.timerStep_getV (s : State) (q : Reg) : (s.timerStep).getV q = s.getV q := rfl
@[simp] theorem State.timerStep_readByte (s : State) (k : Nat) : (s.timerStep).readByte k = s.readByte k := rfl

/-! ### `raiseFetch` -/

@[simp] theorem State.raiseFetch_mem (s : State) : (s.raiseFetch).mem = s.mem := rfl
@[simp] theorem State.raiseFetch_v (s : State) : (s.raiseFetch).v = s.v := rfl
@[simp] theorem State.raiseFetch_i (s : State) : (s.raiseFetch).i = s.i := rfl
@[simp] theorem State.raiseFetch_pc (s : State) : (s.raiseFetch).pc = s.pc := rfl
@[simp] theorem State.raiseFetch_stack (s : State) : (s.raiseFetch).stack = s.stack := rfl
@[simp] theorem State.raiseFetch_sp (s : State) : (s.raiseFetch).sp = s.sp := rfl
@[simp] theorem State.raiseFetch_dt (s : State) : (s.raiseFetch).dt = s.dt := rfl
@[simp] theorem State.raiseFetch_st (s : State) : (s.raiseFetch).st = s.st := rfl
@[simp] theorem State.raiseFetch_fb (s : State) : (s.raiseFetch).fb = s.fb := rfl
@[simp] theorem State.raiseFetch_keys (s : State) : (s.raiseFetch).keys = s.keys := rfl
@[simp] theorem State.raiseFetch_op (s : State) : (s.raiseFetch).op = s.op := rfl
@[simp] theorem State.raiseFetch_fault (s : State) : (s.raiseFetch).fault = some ⟨.fetchBounds, s.pc, 0⟩ := rfl
@[simp] theorem State.raiseFetch_cfg (s : State) : (s.raiseFetch).cfg = s.cfg := rfl
@[simp] theorem State.raiseFetch_rnd (s : State) : (s.raiseFetch).rnd = s.rnd := rfl
@[simp] theorem State.raiseFetch_inputs (s : State) : (s.raiseFetch).inputs = s.inputs := rfl
@[simp] theorem State.raiseFetch_draws (s : State) : (s.raiseFetch).draws = s.draws := rfl
@[simp] theorem State.raiseFetch_getV (s : State) (q : Reg) : (s.raiseFetch).getV q = s.getV q := rfl
@[simp] theorem State.raiseFetch_readByte (s : State) (k : Nat) : (s.raiseFetch).readByte k = s.readByte k := rfl

/-! ### `loadRegs` -/

@[simp] theorem State.loadRegs_mem (s : State) (x : Reg) : (s.loadRegs x).mem = s.mem := rfl
@[simp] theorem State.loadRegs_i (s : State) (x : Reg) : (s.loadRegs x).i = s.i := rfl
@[simp] theorem State.loadRegs_pc (s : State) (x : Reg) : (s.loadRegs x).pc = s.pc := rfl
@[simp] theorem State.loadRegs_stack (s : State) (x : Reg) : (s.loadRegs x).stack = s.stack := rfl
@[simp] theorem State.loadRegs_sp (s : State) (x : Reg) : (s.loadRegs x).sp = s.sp := rfl
@[simp] theorem State.loadRegs_dt (s : State) (x : Reg) : (s.loadRegs x).dt = s.dt := rfl
@[simp] theorem State.loadRegs_st (s : State) (x : Reg) : (s.loadRegs x).st = s.st := rfl
@[simp] theorem State.loadRegs_fb (s : State) (x : Reg) : (s.loadRegs x).fb = s.fb := rfl
@[simp] theorem State.loadRegs_keys (s : State) (x : Reg) : (s.loadRegs x).keys = s.keys := rfl
@[simp] theorem State.loadRegs_op (s : State) (x : Reg) : (s.loadRegs x).op = s.op := rfl
@[simp] theorem State.loadRegs_fault (s : State) (x : Reg) : (s.loadRegs x).fault = s.fault := rfl
@[simp] theorem State.loadRegs_cfg (s : State) (x : Reg) : (s.loadRegs x).cfg = s.cfg := rfl
@[simp] theorem State.loadRegs_rnd (s : State) (x : Reg) : (s.loadRegs x).rnd = s.rnd := rfl
@[simp] theorem State.loadRegs_inputs (s : State) (x : Reg) : (s.loadRegs x).inputs = s.inputs := rfl
@[simp] theorem State.loadRegs_draws (s : State) (x : Reg) : (s.loadRegs x).draws = s.draws := rfl
@[simp] theorem State.loadRegs_readByte (s : State) (x : Reg) (k : Nat) :
    (s.loadRegs x).readByte k = s.readByte k := rfl

/-! ### `skipIf` -/

@[simp] theorem State.skipIf_mem (s : State) (c : Bool) : (s.skipIf c).mem = s.mem := by cases c <;> rfl
@[simp] theorem State.skipIf_v (s : State) (c : Bool) : (s.skipIf c).v = s.v := by cases c <;> rfl
@[simp] theorem State.skipIf_i (s : State) (c : Bool) : (s.skipIf c).i = s.i := by cases c <;> rfl
@[simp] theorem State.skipIf_pc (s : State) (c : Bool) :
    (s.skipIf c).pc = if c then s.pc + 2 else s.pc := by cases c <;> rfl
@[simp] theorem State.skipIf_stack (s : State) (c : Bool) : (s.skipIf c).stack = s.stack := by cases c <;> rfl
@[simp] theorem State.skipIf_sp (s : State) (c : Bool) : (s.skipIf c).sp = s.sp := by cases c <;> rfl
@[simp] theorem State.skipIf_dt (s : State) (c : Bool) : (s.skipIf c).dt = s.dt := by cases c <;> rfl
@[simp] theorem State.skipIf_st (s : State) (c : Bool) : (s.skipIf c).st = s.st := by cases c <;> rfl
@[simp] theorem State.skipIf_fb (s : State) (c : Bool) : (s.skipIf c).fb = s.fb := by cases c <;> rfl
@[simp] theorem State.skipIf_keys (s : State) (c : Bool) : (s.skipIf c).keys = s.keys := by cases c <;> rfl
@[simp] theorem State.skipIf_op (s : State) (c : Bool) : (s.skipIf c).op = s.op := by cases c <;> rfl
@[simp] theorem State.skipIf_fault (s : State) (c : Bool) : (s.skipIf c).fault = s.fault := by cases c <;> rfl
@[simp] theorem State.skipIf_cfg (s : State) (c : Bool) : (s.skipIf c).cfg = s.cfg := by cases c <;> rfl
@[simp] theorem State.skipIf_rnd (s : State) (c : Bool) : (s.skipIf c).rnd = s.rnd := by cases c <;> rfl
@[simp] theorem State.skipIf_inputs (s : State) (c : Bool) : (s.skipIf c).inputs = s.inputs := by cases c <;> rfl
@[simp] theorem State.skipIf_draws (s : State) (c : Bool) : (s.skipIf c).draws = s.draws := by cases c <;> rfl
@[simp] theorem State.skipIf_getV (s : State) (c : Bool) (q : Reg) :
    (s.skipIf c).getV q = s.getV q := by cases c <;> rfl
@[simp] theorem State.skipIf_readByte (s : State) (c : Bool) (k : Nat) :
    (s.skipIf c).readByte k = s.readByte k := by cases c <;> rfl

/-! ### `raise` -/

@[simp] theorem raise_mem (s : State) (c : FaultCause) : (raise s c).mem = s.mem := rfl
@[simp] theorem raise_v (s : State) (c : FaultCause) : (raise s c).v = s.v := rfl
@[simp] theorem raise_i (s : State) (c : FaultCause) : (raise s c).i = s.i := rfl
@[simp] theorem raise_pc (s : State) (c : FaultCause) : (raise s c).pc = s.pc - 2 := rfl
@[simp] theorem raise_stack (s : State) (c : FaultCause) : (raise s c).stack = s.stack := rfl
@[simp] theorem raise_sp (s : State) (c : FaultCause) : (raise s c).sp = s.sp := rfl
@[simp] theorem raise_dt (s : State) (c : FaultCause) : (raise s c).dt = s.dt := rfl
@[simp] theorem raise_st (s : State) (c : FaultCause) : (raise s c).st = s.st := rfl
@[simp] theorem raise_fb (s : State) (c : FaultCause) : (raise s c).fb = s.fb := rfl
@[simp] theorem raise_keys (s : State) (c : FaultCause) : (raise s c).keys = s.keys := rfl
@[simp] theorem raise_op (s : State) (c : FaultCause) : (raise s c).op = s.op := rfl
@[simp] theorem raise_fault (s : State) (c : FaultCause) : (raise s c).fault = some ⟨c, s.pc - 2, s.op⟩ := rfl
@[simp] theorem raise_cfg (s : State) (c : FaultCause) : (raise s c).cfg = s.cfg := rfl
@[simp] theorem raise_rnd (s : State) (c : FaultCause) : (raise s c).rnd = s.rnd := rfl
@[simp] theorem raise_inputs (s : State) (c : FaultCause) : (raise s c).inputs = s.inputs := rfl
@[simp] theorem raise_draws (s : State) (c : FaultCause) : (raise s c).draws = s.draws := rfl
@[simp] theorem raise_getV (s : State) (c : FaultCause) (q : Reg) : (raise s c).getV q = s.getV q := rfl
@[simp] theorem raise_readByte (s : State) (c : FaultCause) (k : Nat) : (raise s c).readByte k = s.readByte k := rfl

/-! ### `writeBytes` -/

@[simp] theorem State.writeBytes_v (bs : List Byte) : ∀ (s : State) (a : Nat), (s.writeBytes a bs).v = s.v := by
  induction bs with
  | nil => intro s a; rfl
  | cons b bs ih => intro s a; simp only [State.writeBytes, ih, State.writeByte_v]

@[simp] theorem State.writeBytes_i (bs : List Byte) : ∀ (s : State) (a : Nat), (s.writeBytes a bs).i = s.i := by
  induction bs with
  | nil => intro s a; rfl
  | cons b bs ih => intro s a; simp only [State.writeBytes, ih, State.writeByte_i]

@[simp] theorem State.writeBytes_pc (bs : List Byte) : ∀ (s : State) (a : Nat), (s.writeBytes a bs).pc = s.pc := by
  induction bs with
  | nil => intro s a; rfl
  | cons b bs ih => intro s a; simp only [State.writeBytes, ih, State.writeByte_pc]

@[simp] theorem State.writeBytes_stack (bs : List Byte) : ∀ (s : State) (a : Nat), (s.writeBytes a bs).stack = s.stack := by
  induction bs with
  | nil => intro s a; rfl
  | cons b bs ih => intro s a; simp only [State.writeBytes, ih, State.writeByte_stack]

@[simp] theorem State.writeBytes_sp (bs : List Byte) : ∀ (s : State) (a : Nat), (s.writeBytes a bs).sp = s.sp := by
  induction bs with
  | nil => intro s a; rfl
  | cons b bs ih => intro s a; simp only [State.writeBytes, ih, State.writeByte_sp]

@[simp] theorem State.writeBytes_dt (bs : List Byte) : ∀ (s : State) (a : Nat), (s.writeBytes a bs).dt = s.dt := by
  induction bs with
  | nil => intro s a; rfl
  | cons b bs ih => intro s a; simp only [State.writeBytes, ih, State.writeByte_dt]

@[simp] theorem State.writeBytes_st (bs : List Byte) : ∀ (s : State) (a : Nat), (s.writeBytes a bs).st = s.st := by
  induction bs with
  | nil => intro s a; rfl
  | cons b bs ih => intro s a; simp only [State.writeBytes, ih, State.writeByte_st]

@[simp] theorem State.writeBytes_fb (bs : List Byte) : ∀ (s : State) (a : Nat), (s.writeBytes a bs).fb = s.fb := by
  induction bs with
  | nil => intro s a; rfl
  | cons b bs ih => intro s a; simp only [State.writeBytes, ih, State.writeByte_fb]

@[simp] theorem State.writeBytes_keys (bs : List Byte) : ∀ (s : State) (a : Nat), (s.writeBytes a bs).keys = s.keys := by
  induction bs with
  | nil => intro s a; rfl
  | cons b bs ih => intro s a; simp only [State.writeBytes, ih, State.writeByte_keys]

@[simp] theorem State.writeBytes_op (bs : List Byte) : ∀ (s : State) (a : Nat), (s.writeBytes a bs).op = s.op := by
  induction bs with
  | nil => intro s a; rfl
  | cons b bs ih => intro s a; simp only [State.writeBytes, ih, State.writeByte_op]

@[simp] theorem State.writeBytes_fault (bs : List Byte) : ∀ (s : State) (a : Nat), (s.writeBytes a bs).fault = s.fault := by
  induction bs with
  | nil => intro s a; rfl
  | cons b bs ih => intro s a; simp only [State.writeBytes, ih, State.writeByte_fault]

@[simp] theorem State.writeBytes_cfg (bs : List Byte) : ∀ (s : State) (a : Nat), (s.writeBytes a bs).cfg = s.cfg := by
  induction bs with
  | nil => intro s a; rfl
  | cons b bs ih => intro s a; simp only [State.writeBytes, ih, State.writeByte_cfg]

@[simp] theorem State.writeBytes_rnd (bs : List Byte) : ∀ (s : State) (a : Nat), (s.writeBytes a bs).rnd = s.rnd := by
  induction bs with
  | nil => intro s a; rfl
  | cons b bs ih => intro s a; simp only [State.writeBytes, ih, State.writeByte_rnd]

@[simp] theorem State.writeBytes_inputs (bs : List Byte) : ∀ (s : State) (a : Nat), (s.writeBytes a bs).inputs = s.inputs := by
  induction bs with
  | nil => intro s a; rfl
  | cons b bs ih => intro s a; simp only [State.writeBytes, ih, State.writeByte_inputs]

@[simp] theorem State.writeBytes_draws (bs : List Byte) : ∀ (s : State) (a : Nat), (s.writeBytes a bs).draws = s.draws := by
  induction bs with
  | nil => intro s a; rfl
  | cons b bs ih => intro s a; simp only [State.writeBytes, ih, State.writeByte_draws]

@[simp] theorem State.writeBytes_getV (s : State) (a : Nat) (bs : List Byte) (q : Reg) :
    (s.writeBytes a bs).getV q = s.getV q := by
  simp only [State.getV, State.writeBytes_v]

/-! ### `sample` -/

@[simp] theorem State.sample_mem (s : State) :
    s.sample.mem = s.mem := by
  cases h : s.inputs <;> simp only [State.sample, h]
@[simp] theorem State.sample_v (s : State) :
    s.sample.v = s.v := by
  cases h : s.inputs <;> simp only [State.sample, h]
@[simp] theorem State.sample_i (s : State) :
    s.sample.i = s.i := by
  cases h : s.inputs <;> simp only [State.sample, h]
@[simp] theorem State.sample_pc (s : State) :
    s.sample.pc = s.pc := by
  cases h : s.inputs <;> simp only [State.sample, h]
@[simp] theorem State.sample_stack (s : State) :
    s.sample.stack = s.stack := by
  cases h : s.inputs <;> simp only [State.sample, h]
@[simp] theorem State.sample_sp (s : State) :
    s.sample.sp = s.sp := by
  cases h : s.inputs <;> simp only [State.sample, h]
@[simp] theorem State.sample_dt (s : State) :
    s.sample.dt = s.dt := by
  cases h : s.inputs <;> simp only [State.sample, h]
@[simp] theorem State.sample_st (s : State) :
    s.sample.st = s.st := by
  cases h : s.inputs <;> simp only [State.sample, h]
@[simp] theorem State.sample_fb (s : State) :
    s.sample.fb = s.fb := by
  cases h : s.inputs <;> simp only [State.sample, h]
@[simp] theorem State.sample_op (s : State) :
    s.sample.op = s.op := by
  cases h : s.inputs <;> simp only [State.sample, h]
@[simp] theorem State.sample_fault (s : State) :
    s.sample.fault = s.fault := by
  cases h : s.inputs <;> simp only [State.sample, h]
@[simp] theorem State.sample_cfg (s : State) :
    s.sample.cfg = s.cfg := by
  cases h : s.inputs <;> simp only [State.sample, h]
@[simp] theorem State.sample_getV (s : State) (q : Reg) :
    s.sample.getV q = s.getV q := by
  simp only [State.getV, State.sample_v]
@[simp] theorem State.sample_readByte (s : State) (k : Nat) :
    s.sample.readByte k = s.readByte k := by
  simp only [State.readByte, State.sample_mem, State.sample_cfg]

/-- A scripted input is what the Cycle sees. -/
theorem State.sample_cons (s : State) (i : Input) (rest : List Input) (h : s.inputs = i :: rest) :
    s.sample = { s with keys := i.keys, rnd := i.rnd, inputs := rest } := by
  simp only [State.sample, h]

/-- Past the host's list the keypad stays and the random byte is free. -/
theorem State.sample_nil (s : State) (h : s.inputs = []) :
    s.sample = { s with rnd := Config.freeRnd s.draws, draws := s.draws + 1 } := by
  simp only [State.sample, h]


/-! ### `endCycle` -/

@[simp] theorem endCycle_mem (s : State) (w : Word) :
    (endCycle w s).mem = s.mem := by
  cases h : s.fault <;> simp [endCycle, h]
@[simp] theorem endCycle_v (s : State) (w : Word) :
    (endCycle w s).v = s.v := by
  cases h : s.fault <;> simp [endCycle, h]
@[simp] theorem endCycle_i (s : State) (w : Word) :
    (endCycle w s).i = s.i := by
  cases h : s.fault <;> simp [endCycle, h]
@[simp] theorem endCycle_pc (s : State) (w : Word) :
    (endCycle w s).pc = s.pc := by
  cases h : s.fault <;> simp [endCycle, h]
@[simp] theorem endCycle_stack (s : State) (w : Word) :
    (endCycle w s).stack = s.stack := by
  cases h : s.fault <;> simp [endCycle, h]
@[simp] theorem endCycle_sp (s : State) (w : Word) :
    (endCycle w s).sp = s.sp := by
  cases h : s.fault <;> simp [endCycle, h]
@[simp] theorem endCycle_fb (s : State) (w : Word) :
    (endCycle w s).fb = s.fb := by
  cases h : s.fault <;> simp [endCycle, h]
@[simp] theorem endCycle_keys (s : State) (w : Word) :
    (endCycle w s).keys = s.keys := by
  cases h : s.fault <;> simp [endCycle, h]
@[simp] theorem endCycle_fault (s : State) (w : Word) :
    (endCycle w s).fault = s.fault := by
  cases h : s.fault <;> simp [endCycle, h]
@[simp] theorem endCycle_cfg (s : State) (w : Word) :
    (endCycle w s).cfg = s.cfg := by
  cases h : s.fault <;> simp [endCycle, h]
@[simp] theorem endCycle_rnd (s : State) (w : Word) :
    (endCycle w s).rnd = s.rnd := by
  cases h : s.fault <;> simp [endCycle, h]
@[simp] theorem endCycle_inputs (s : State) (w : Word) :
    (endCycle w s).inputs = s.inputs := by
  cases h : s.fault <;> simp [endCycle, h]
@[simp] theorem endCycle_draws (s : State) (w : Word) :
    (endCycle w s).draws = s.draws := by
  cases h : s.fault <;> simp [endCycle, h]
@[simp] theorem endCycle_getV (s : State) (w : Word) (q : Reg) :
    (endCycle w s).getV q = s.getV q := by
  simp only [State.getV, endCycle_v]
@[simp] theorem endCycle_readByte (s : State) (w : Word) (k : Nat) :
    (endCycle w s).readByte k = s.readByte k := by
  simp only [State.readByte, endCycle_mem, endCycle_cfg]

/-- A Cycle without a fault ends in the timer step (R95). -/
theorem endCycle_of_none (w : Word) (s : State) (h : s.fault = none) : endCycle w s = s.timerStep := by
  simp only [endCycle, h]

/-- A faulting Cycle restores the opcode latch and moves no timer (R215). -/
theorem endCycle_of_some (w : Word) (s : State) (r : FaultRecord) (h : s.fault = some r) :
    endCycle w s = { s with op := w } := by
  simp only [endCycle, h]

end Sys2Proof.Machine
end

