-- ==== Sys2Proof/Laws/Ops.lean ====
section
/-!
SUPPORT. What each shared operation can do, said once: memory, registers, stack, operands, framebuffer cells.
-/

namespace Sys2Proof.Machine

/-! ## Memory -/

theorem Memory.wfFrom_cons (c : Config) (lo k : Nat) (b : Byte) (m : Memory) :
    Memory.wfFrom c lo ((k, b) :: m) = true ↔
      lo ≤ k ∧ k < 4096 ∧ b ≠ initialByte c k ∧ Memory.wfFrom c (k + 1) m = true := by
  simp [Memory.wfFrom, and_assoc]

/-- A list in form from `hi` on is in form from any lower address on. -/
theorem Memory.wfFrom_mono (c : Config) (m : Memory) {lo hi : Nat} (h : lo ≤ hi)
    (hm : Memory.wfFrom c hi m = true) : Memory.wfFrom c lo m = true := by
  cases m with
  | nil => rfl
  | cons e m =>
    rw [Memory.wfFrom_cons] at hm ⊢
    exact ⟨h.trans hm.1, hm.2⟩

/-- Below its first address a list reads as after reset. -/
theorem Memory.read_below (c : Config) (m : Memory) :
    ∀ {lo a : Nat}, Memory.wfFrom c lo m = true → a < lo → Memory.read c m a = initialByte c a := by
  induction m with
  | nil => intros; rfl
  | cons e m ih =>
    obtain ⟨k, b⟩ := e
    intro lo a hm ha
    rw [Memory.wfFrom_cons] at hm
    rw [Memory.read, if_neg (by omega)]
    exact ih hm.2.2.2 (by omega)

/-- Writing keeps the canonical form. -/
theorem Memory.wfFrom_write (c : Config) (a : Nat) (b : Byte) (ha : a < 4096) (m : Memory) :
    ∀ {lo : Nat}, lo ≤ a → Memory.wfFrom c lo m = true → Memory.wfFrom c lo (Memory.write c m a b) = true := by
  induction m with
  | nil =>
    intro lo hlo _
    unfold Memory.write
    split
    · rfl
    · rw [Memory.wfFrom_cons]; exact ⟨hlo, ha, ‹_›, rfl⟩
  | cons e m ih =>
    obtain ⟨k, d⟩ := e
    intro lo hlo hm
    have hm' := hm
    rw [Memory.wfFrom_cons] at hm
    obtain ⟨h1, h2, h3, h4⟩ := hm
    unfold Memory.write
    split
    · split
      · exact hm'
      · rw [Memory.wfFrom_cons, Memory.wfFrom_cons]
        exact ⟨hlo, ha, ‹_›, by omega, h2, h3, h4⟩
    · split
      · subst a
        split
        · exact Memory.wfFrom_mono c m (by omega) h4
        · rw [Memory.wfFrom_cons]; exact ⟨h1, h2, ‹_›, h4⟩
      · rw [Memory.wfFrom_cons]; exact ⟨h1, h2, h3, ih (by omega) h4⟩

/-- A read after a write: the value written there, every other address as before. -/
theorem Memory.read_write (c : Config) (a : Nat) (b : Byte) (k : Nat) (m : Memory) :
    ∀ {lo : Nat}, Memory.wfFrom c lo m = true →
      Memory.read c (Memory.write c m a b) k = if k = a then b else Memory.read c m k := by
  induction m with
  | nil =>
    intro lo _
    unfold Memory.write
    split
    · simp only [Memory.read]; split <;> simp_all
    · simp only [Memory.read]
  | cons e m ih =>
    obtain ⟨q, d⟩ := e
    intro lo hm
    have hm' := hm
    rw [Memory.wfFrom_cons] at hm
    obtain ⟨h1, h2, h3, h4⟩ := hm
    unfold Memory.write
    split
    · split
      · split
        · subst k; rw [Memory.read_below c _ (lo := q) (Memory.wfFrom_cons c q q d m |>.2 ⟨le_rfl, h2, h3, h4⟩) ‹_›]
          exact (‹b = _›).symm
        · rfl
      · rfl
    · split
      · subst a
        split
        · split
          · subst k; rw [Memory.read_below c _ h4 (by omega)]; exact (‹b = _›).symm
          · rw [Memory.read, if_neg ‹_›]
        · simp only [Memory.read]; split <;> rfl
      · simp only [Memory.read, ih h4]
        split
        · split
          · omega
          · rfl
        · rfl

theorem State.MemoryForm_writeByte {s : State} {a : Nat} (b : Byte) (ha : a < 4096)
    (hs : Memory.wf s.cfg s.mem = true) :
    Memory.wf (s.writeByte a b).cfg (s.writeByte a b).mem = true :=
  Memory.wfFrom_write s.cfg a b ha s.mem (Nat.zero_le a) hs

theorem State.readByte_writeByte {s : State} (a : Nat) (b : Byte) (k : Nat) (hs : Memory.wf s.cfg s.mem = true) :
    (s.writeByte a b).readByte k = if k = a then b else s.readByte k :=
  Memory.read_write s.cfg a b k s.mem hs

/-- Storing a block that fits keeps the canonical form. -/
theorem State.MemoryForm_writeBytes (bs : List Byte) : ∀ {s : State} {a : Nat}, a + bs.length ≤ 4096 →
    Memory.wf s.cfg s.mem = true → Memory.wf (s.writeBytes a bs).cfg (s.writeBytes a bs).mem = true := by
  induction bs with
  | nil => intro s a _ hs; exact hs
  | cons b bs ih =>
    intro s a ha hs
    simp only [List.length_cons] at ha
    exact ih (by omega) (State.MemoryForm_writeByte b (by omega) hs)

/-- What memory reads as after a block store: the block at its addresses, every other address as before. -/
theorem State.readByte_writeBytes (bs : List Byte) (k : Nat) : ∀ {s : State} {a : Nat}, a + bs.length ≤ 4096 →
    Memory.wf s.cfg s.mem = true →
    (s.writeBytes a bs).readByte k = if h : a ≤ k ∧ k < a + bs.length then bs[k - a]'(by omega) else s.readByte k := by
  induction bs with
  | nil => intro s a _ _; rw [dif_neg (by simp)]; rfl
  | cons b bs ih =>
    intro s a ha hs
    simp only [List.length_cons] at ha
    have hstep := ih (s := s.writeByte a b) (a := a + 1) (by omega) (State.MemoryForm_writeByte b (by omega) hs)
    simp only [State.writeBytes, hstep, State.readByte_writeByte a b k hs, List.length_cons]
    by_cases h1 : k = a
    · subst h1; simp
    · by_cases h2 : a + 1 ≤ k ∧ k < a + 1 + bs.length
      · rw [dif_pos h2, dif_pos (by omega)]
        have : k - a = (k - (a + 1)) + 1 := by omega
        simp only [this, List.getElem_cons_succ]
      · rw [dif_neg h2, if_neg h1, dif_neg (by omega)]

@[simp] theorem State.readBytes_length (n : Nat) : ∀ (s : State) (a : Nat), (s.readBytes a n).length = n := by
  induction n with
  | zero => intro s a; rfl
  | succ n ih => intro s a; simp [State.readBytes, ih]

/-- Byte `k` of a block read is the byte at its address. -/
theorem State.readBytes_getElem (n : Nat) : ∀ (s : State) (a k : Nat) (h : k < (s.readBytes a n).length),
    (s.readBytes a n)[k] = s.readByte (a + k) := by
  induction n with
  | zero => intro s a k h; simp [State.readBytes] at h
  | succ n ih =>
    intro s a k h
    cases k with
    | zero => rfl
    | succ k =>
      simp only [State.readBytes, List.getElem_cons_succ, ih]
      congr 1; omega

/-! ## Registers -/

theorem State.getV_setV (s : State) (r : Reg) (b : Byte) (q : Reg) :
    (s.setV r b).getV q = if q = r then b else s.getV q := by
  unfold State.getV State.setV
  simp only [Vector.getElem_set]
  by_cases h : r = q
  · simp [h]
  · rw [if_neg (fun e => h (Fin.ext e)), if_neg (fun e => h e.symm)]

theorem State.getV_setVF (s : State) (b : Byte) (q : Reg) :
    (s.setVF b).getV q = if q = 15 then b else s.getV q :=
  State.getV_setV s 15 b q

/-- The flag is written last: with `x = 15` it is what remains (R11). -/
theorem State.getV_setResultFlag (s : State) (x : Reg) (b f : Byte) (q : Reg) :
    (s.setResultFlag x b f).getV q = if q = 15 then f else if q = x then b else s.getV q := by
  rw [State.setResultFlag, State.getV_setVF, State.getV_setV]

theorem State.getV_loadRegs (s : State) (x q : Reg) :
    (s.loadRegs x).getV q = if q.val ≤ x.val then s.readByte (s.i.toNat + q.val) else s.getV q := by
  simp [State.loadRegs, State.getV]

@[simp] theorem State.regBlock_length (s : State) (x : Reg) : (s.regBlock x).length = x.val + 1 := by
  have := x.isLt
  simp [State.regBlock]

theorem State.regBlock_getElem (s : State) (x : Reg) (k : Nat) (h : k < (s.regBlock x).length) :
    (s.regBlock x)[k] = s.getV ⟨k, by have := x.isLt; rw [State.regBlock_length] at h; omega⟩ := by
  simp [State.regBlock, State.getV]

/-! ## Stack -/

theorem State.push_full (s : State) (w : Word) (h : s.sp.val = 16) : s.push w = none := by
  simp [State.push, h]

theorem State.push_some (s : State) (w : Word) (h : s.sp.val < 16) :
    s.push w = some { s with stack := s.stack.set s.sp.val w, sp := ⟨s.sp.val + 1, by omega⟩ } := by
  simp [State.push, h]

theorem State.pop_empty (s : State) (h : s.sp.val = 0) : s.pop = none := by
  simp [State.pop, h]

theorem State.pop_some (s : State) (h : s.sp.val ≠ 0) :
    s.pop = some (s.stack[s.sp.val - 1], { s with sp := ⟨s.sp.val - 1, by omega⟩ }) := by
  simp [State.pop, h]

/-! ## Operands -/

theorem State.blockInBounds_iff (s : State) (len : Nat) :
    s.blockInBounds len = true ↔ len = 0 ∨ s.i.toNat + (len - 1) ≤ 4095 := by
  simp [State.blockInBounds]

theorem keyIndex_some (b : Byte) (h : b.toNat < 16) : keyIndex b = some ⟨b.toNat, h⟩ := by
  simp [keyIndex, h]

theorem keyIndex_none (b : Byte) (h : 15 < b.toNat) : keyIndex b = none := by
  simp [keyIndex]; omega

theorem State.leastKey_none_iff (s : State) : s.leastKey = none ↔ ∀ k : Fin 16, s.keyPressed k = false := by
  simp [State.leastKey, List.find?_eq_none]

/-- The key found is pressed, and none below it is. -/
theorem State.leastKey_some (s : State) (k : Fin 16) (h : s.leastKey = some k) :
    s.keyPressed k = true ∧ ∀ j : Fin 16, j < k → s.keyPressed j = false := by
  refine ⟨List.find?_some h, fun j hj => ?_⟩
  by_contra hne
  have hp : s.keyPressed j = true := by simpa using hne
  obtain ⟨_, l₁, l₂, hl, hb⟩ := List.find?_eq_some_iff_append.1 h
  have hmem : j ∈ List.finRange 16 := List.mem_finRange j
  have hsorted : (List.finRange 16).Pairwise (· < ·) := List.pairwise_lt_finRange 16
  rw [hl] at hmem hsorted
  rcases List.mem_append.1 hmem with h1 | h1
  · have := hb j h1; simp [hp] at this
  · rcases List.mem_cons.1 h1 with h2 | h2
    · exact absurd hj (by simp [h2])
    · have := (List.pairwise_cons.1 (List.pairwise_append.1 hsorted).2.1).1 j h2
      exact absurd hj (by omega)

/-! ## Framebuffer -/

theorem Frame.cell_flip (f : Frame) (r r' : Fin 32) (c c' : Fin 64) :
    Frame.cell (Frame.flip f r c) r' c' = if r' = r ∧ c' = c then ! Frame.cell f r c else Frame.cell f r' c' := by
  unfold Frame.cell Frame.flip
  by_cases hr : r' = r
  · subst hr
    by_cases hc : c' = c
    · subst hc; simp
    · have : c.val ≠ c'.val := fun e => hc (Fin.ext e.symm)
      simp [hc, this]
  · have : r.val ≠ r'.val := fun e => hr (Fin.ext e.symm)
    simp [hr, this]

theorem Frame.cell_clear (r : Fin 32) (c : Fin 64) : Frame.cell Frame.clear r c = false := by
  simp [Frame.cell, Frame.clear]

/-- Two framebuffers with the same cells are equal. -/
theorem Frame.ext_cells (f g : Frame) (h : ∀ r c, Frame.cell f r c = Frame.cell g r c) : f = g := by
  apply Vector.ext
  intro r hr
  apply Vector.ext
  intro c hc
  exact h ⟨r, hr⟩ ⟨c, hc⟩

/-- The pixel lands where WRAP and CLIP say, or nowhere. -/
theorem pixelCoord_some (edge : DrawEdge) (size : Nat) (hs : 0 < size) (p k : Nat) (i : Fin size) :
    pixelCoord edge size hs p k = some i ↔
      i.val = (match edge with | .wrap => (p + k) % size | .clip => p + k) := by
  unfold pixelCoord
  by_cases h : p + k < size
  · rw [dif_pos h]
    cases edge <;> simp [Fin.ext_iff, Nat.mod_eq_of_lt h, eq_comm]
  · rw [dif_neg h]
    cases edge
    · simp [Fin.ext_iff, eq_comm]
    · simp only [reduceCtorEq, false_iff]
      have := i.isLt
      omega

end Sys2Proof.Machine
end

