-- ==== Sys2Proof/Laws/Step.lean ====
section
/-!
SUPPORT. What the Cycle can do, said once.
-/

namespace Sys2Proof.Machine

theorem State.fetch_none (s : State) (h : 4094 < s.pc.toNat) : s.fetch = none := by
  simp [State.fetch, h]

theorem State.fetch_some (s : State) (h : s.pc.toNat ≤ 4094) : s.fetch = some (s.readWord s.pc.toNat) := by
  simp [State.fetch, h]

theorem State.readWord_sample (s : State) (a : Nat) : s.sample.readWord a = s.readWord a := by
  simp [State.readWord]

/-- A halted machine does nothing (R97). -/
theorem step_halted (s : State) (r : FaultRecord) (h : s.fault = some r) : step s = .next s := by
  simp [step, h]

/-- The fetch's own fault (R213). -/
theorem step_fetchBounds (s : State) (h : s.fault = none) (hpc : 4094 < s.pc.toNat) :
    step s = .next s.sample.raiseFetch := by
  simp [step, h, State.fetch_none s.sample (by simpa using hpc)]

/-- A Cycle that fetches: the handler of the word at `pc` on the advanced state, then the end of the Cycle (R99). -/
theorem step_executes (s : State) (h : s.fault = none) (hpc : s.pc.toNat ≤ 4094) :
    step s = match exec s.nextInstr (s.sample.advance (s.readWord s.pc.toNat)) with
      | .next t => .next (endCycle s.op t)
      | .fault r => .fault r
      | .refused r => .refused r := by
  simp only [step, h, Option.isSome_none, Bool.false_eq_true, if_false,
    State.fetch_some s.sample (by simpa using hpc), State.sample_pc, State.readWord_sample]
  rfl

/-- Everything a step can do: stay halted, fault in the fetch, or run the handler of the fetched word. -/
theorem step_cases {s t : State} (h : step s = .next t) :
    (s.fault ≠ none ∧ t = s) ∨
    (s.fault = none ∧ 4094 < s.pc.toNat ∧ t = s.sample.raiseFetch) ∨
    (s.fault = none ∧ s.pc.toNat ≤ 4094 ∧ ∃ u, exec s.nextInstr (s.sample.advance (s.readWord s.pc.toNat)) = .next u
      ∧ t = endCycle s.op u) := by
  cases hf : s.fault with
  | some r =>
    rw [step_halted s r hf] at h
    cases h
    exact .inl ⟨by simp, rfl⟩
  | none =>
    by_cases hpc : s.pc.toNat ≤ 4094
    · rw [step_executes s hf hpc] at h
      split at h
      · cases h; exact .inr (.inr ⟨rfl, hpc, _, ‹_›, rfl⟩)
      · cases h
      · cases h
    · rw [step_fetchBounds s hf (by omega)] at h
      cases h
      exact .inr (.inl ⟨rfl, by omega, rfl⟩)

end Sys2Proof.Machine
end

