-- ==== Sys2Proof/Laws/Exec.lean ====
section
/-!
SUPPORT. The meanings that raise a fault or look at a condition, one equation per case, and what drawing one pixel does.
-/

namespace Sys2Proof.Machine

theorem execRet_empty (s : State) (h : s.sp.val = 0) : execRet s = .next (raise s .stackUnderflow) := by
  simp only [execRet, State.pop_empty s h]

theorem execRet_pops (s : State) (h : s.sp.val ≠ 0) :
    execRet s = .next { s with sp := ⟨s.sp.val - 1, by omega⟩, pc := s.stack[s.sp.val - 1] } := by
  simp only [execRet, State.pop_some s h]
  rfl

theorem execCall_full (nnn : BitVec 12) (s : State) (h : s.sp.val = 16) :
    execCall nnn s = .next (raise s .stackOverflow) := by
  simp only [execCall, State.push_full s s.pc h]

theorem execCall_pushes (nnn : BitVec 12) (s : State) (h : s.sp.val < 16) :
    execCall nnn s = .next { s with
      stack := s.stack.set s.sp.val s.pc, sp := ⟨s.sp.val + 1, by omega⟩, pc := addressOperand nnn } := by
  simp only [execCall, State.push_some s s.pc h]
  rfl

theorem execDrw_outside (x y : Reg) (n : Fin 16) (s : State) (h0 : 0 < n.val) (h : 4095 < s.i.toNat + (n.val - 1)) :
    execDrw x y n s = .next (raise s .memoryBounds) := by
  have hb : ¬ s.blockInBounds n.val = true := by rw [State.blockInBounds_iff]; omega
  rw [execDrw, if_neg hb]

theorem execDrw_inside (x y : Reg) (n : Fin 16) (s : State) (h : n.val = 0 ∨ s.i.toNat + (n.val - 1) ≤ 4095) :
    execDrw x y n s =
      .next (State.setVF { s with fb := (drawSprite s x y n.val).fb } (flagByte (drawSprite s x y n.val).collision)) := by
  rw [execDrw, if_pos ((State.blockInBounds_iff s n.val).2 h)]

theorem execLdBVx_outside (x : Reg) (s : State) (h : 4093 < s.i.toNat) :
    execLdBVx x s = .next (raise s .memoryBounds) := by
  have hb : ¬ s.blockInBounds 3 = true := by rw [State.blockInBounds_iff]; omega
  rw [execLdBVx, if_neg hb]

theorem execLdBVx_inside (x : Reg) (s : State) (h : s.i.toNat ≤ 4093) :
    execLdBVx x s = .next (s.writeBytes s.i.toNat (decimalDigits (s.getV x))) := by
  rw [execLdBVx, if_pos ((State.blockInBounds_iff s 3).2 (by omega))]

theorem execLdMemVx_outside (x : Reg) (s : State) (h : 4095 < s.i.toNat + x.val) :
    execLdMemVx x s = .next (raise s .memoryBounds) := by
  have hb : ¬ s.blockInBounds (x.val + 1) = true := by rw [State.blockInBounds_iff]; omega
  rw [execLdMemVx, if_neg hb]

theorem execLdMemVx_inside (x : Reg) (s : State) (h : s.i.toNat + x.val ≤ 4095) :
    execLdMemVx x s = .next (s.writeBytes s.i.toNat (s.regBlock x)) := by
  rw [execLdMemVx, if_pos ((State.blockInBounds_iff s (x.val + 1)).2 (by omega))]

theorem execLdVxMem_outside (x : Reg) (s : State) (h : 4095 < s.i.toNat + x.val) :
    execLdVxMem x s = .next (raise s .memoryBounds) := by
  have hb : ¬ s.blockInBounds (x.val + 1) = true := by rw [State.blockInBounds_iff]; omega
  rw [execLdVxMem, if_neg hb]

theorem execLdVxMem_inside (x : Reg) (s : State) (h : s.i.toNat + x.val ≤ 4095) :
    execLdVxMem x s = .next (s.loadRegs x) := by
  rw [execLdVxMem, if_pos ((State.blockInBounds_iff s (x.val + 1)).2 (by omega))]

theorem keySkip_outside (want : Bool) (x : Reg) (s : State) (h : 15 < (s.getV x).toNat) :
    keySkip want x s = raise s .keyIndex := by
  simp only [keySkip, keyIndex_none _ h]

theorem keySkip_inside (want : Bool) (x : Reg) (s : State) (h : (s.getV x).toNat ≤ 15) :
    keySkip want x s = s.skipIf (s.keys.getLsbD (s.getV x).toNat == want) := by
  simp only [keySkip, keyIndex_some _ (by omega : (s.getV x).toNat < 16), State.keyPressed]

/-! ## One pixel -/

/-- The pixel lands on the cell the policy names (R172, R174), or nowhere when that lies outside the grid. -/
theorem pixelCoord_eq_some (edge : DrawEdge) (size : Nat) (hs : 0 < size) (p k : Nat) (i : Fin size) :
    pixelCoord edge size hs p k = some i ↔ landsOn edge size p k = i.val := by
  rw [pixelCoord_some]
  cases edge <;> exact eq_comm

/-- Drawing a 1 bit toggles the cell it lands on and no other (R172). -/
theorem drawPixel_cell (edge : DrawEdge) (x0 y0 r j : Nat) (d : Draw) (rr : Fin 32) (cc : Fin 64) :
    Frame.cell (drawPixel edge x0 y0 r j d).fb rr cc =
      if landsOn edge 32 y0 r = rr.val ∧ landsOn edge 64 x0 j = cc.val then ! Frame.cell d.fb rr cc
      else Frame.cell d.fb rr cc := by
  unfold drawPixel
  split
  · rename_i r' c' hr hc
    rw [pixelCoord_eq_some] at hr hc
    rw [Frame.cell_flip, hr, hc]
    by_cases h : rr = r' ∧ cc = c'
    · obtain ⟨rfl, rfl⟩ := h; simp
    · rw [if_neg h, if_neg]
      rintro ⟨h1, h2⟩
      exact h ⟨Fin.ext h1.symm, Fin.ext h2.symm⟩
  · rename_i hno
    rw [if_neg]
    rintro ⟨h1, h2⟩
    exact hno rr cc ((pixelCoord_eq_some ..).2 h1) ((pixelCoord_eq_some ..).2 h2)

/-- Drawing a 1 bit collides when the cell it lands on was set, and the detector is sticky (R173). -/
theorem drawPixel_collision (edge : DrawEdge) (x0 y0 r j : Nat) (d : Draw) :
    (drawPixel edge x0 y0 r j d).collision = true ↔
      d.collision = true ∨ ∃ (rr : Fin 32) (cc : Fin 64), landsOn edge 32 y0 r = rr.val ∧
        landsOn edge 64 x0 j = cc.val ∧ Frame.cell d.fb rr cc = true := by
  unfold drawPixel
  split
  · rename_i r' c' hr hc
    rw [pixelCoord_eq_some] at hr hc
    simp only [Bool.or_eq_true]
    refine or_congr_right ⟨fun h => ⟨r', c', hr, hc, h⟩, ?_⟩
    rintro ⟨rr, cc, h1, h2, h3⟩
    obtain rfl : rr = r' := Fin.ext (h1.symm.trans hr)
    obtain rfl : cc = c' := Fin.ext (h2.symm.trans hc)
    exact h3
  · rename_i hno
    refine ⟨Or.inl, ?_⟩
    rintro (h | ⟨rr, cc, h1, h2, _⟩)
    · exact h
    · exact absurd ((pixelCoord_eq_some ..).2 h2) (hno rr cc ((pixelCoord_eq_some ..).2 h1))

end Sys2Proof.Machine
end

