-- ==== Sys2Proof/Laws/PerInstr.lean ====
section
/-!
SUPPORT. Laws of every instruction as syntax, one lemma per constructor: the word the encoder emits selects the
instruction's row of the opcode table (30_encoding.md R75).
-/

namespace Sys2Proof

/-- What the masks of R75 leave of a word: its key bits. -/
theorem wordOfNibbles_family (f x y k : Fin 16) :
    wordOfNibbles f x y k &&& 0xF000 = wordOfNibbles f 0 0 0 := by
  apply BitVec.eq_of_getLsbD_eq
  intro i hi
  simp only [wordOfNibbles, BitVec.getLsbD_append, BitVec.getLsbD_and]
  interval_cases i <;> simp

theorem wordOfNibbles_key (f x y k : Fin 16) :
    wordOfNibbles f x y k &&& 0xF00F = wordOfNibbles f 0 0 k := by
  apply BitVec.eq_of_getLsbD_eq
  intro i hi
  simp only [wordOfNibbles, BitVec.getLsbD_append, BitVec.getLsbD_and]
  interval_cases i <;> simp

theorem wordOfAddress_family (f : Fin 16) (nnn : BitVec 12) :
    wordOfAddress f nnn &&& 0xF000 = wordOfAddress f 0 := by
  apply BitVec.eq_of_getLsbD_eq
  intro i hi
  simp only [wordOfAddress, BitVec.getLsbD_append, BitVec.getLsbD_and]
  interval_cases i <;> simp

theorem wordOfImmediate_family (f x : Fin 16) (kk : Byte) :
    wordOfImmediate f x kk &&& 0xF000 = wordOfImmediate f 0 0 := by
  apply BitVec.eq_of_getLsbD_eq
  intro i hi
  simp only [wordOfImmediate, BitVec.getLsbD_append, BitVec.getLsbD_and]
  interval_cases i <;> simp

theorem wordOfImmediate_key (f x : Fin 16) (kk : Byte) :
    wordOfImmediate f x kk &&& 0xF00F = wordOfImmediate f 0 (kk &&& 0x0F) := by
  apply BitVec.eq_of_getLsbD_eq
  intro i hi
  simp only [wordOfImmediate, BitVec.getLsbD_append, BitVec.getLsbD_and]
  interval_cases i <;> simp

theorem wordOfImmediate_low (f x : Fin 16) (kk : Byte) :
    wordOfImmediate f x kk &&& 0xF0FF = wordOfImmediate f 0 kk := by
  apply BitVec.eq_of_getLsbD_eq
  intro i hi
  simp only [wordOfImmediate, BitVec.getLsbD_append, BitVec.getLsbD_and]
  interval_cases i <;> simp

end Sys2Proof

namespace Sys2Proof.Laws.EncodedWordSelectsItsRow

/-- The instruction's row, if it has one, is a row of the table and selects the encoded word; the no-op has none. -/
def Statement (i : Instr) : Prop :=
  match i.row with
  | some r => r ∈ opcodeTable ∧ r.selects (encode i) = true
  | none => ∃ w, i = .nop w

theorem cls : Statement .cls := ⟨by decide, by decide⟩
theorem ret : Statement .ret := ⟨by decide, by decide⟩
theorem jp (nnn : BitVec 12) : Statement (.jp nnn) :=
  ⟨by decide, by simp only [OpRow.selects, encode, wordOfAddress_family]; decide⟩
theorem call (nnn : BitVec 12) : Statement (.call nnn) :=
  ⟨by decide, by simp only [OpRow.selects, encode, wordOfAddress_family]; decide⟩
theorem seImm (x : Reg) (kk : Byte) : Statement (.seImm x kk) :=
  ⟨by decide, by simp only [OpRow.selects, encode, wordOfImmediate_family]; decide⟩
theorem sneImm (x : Reg) (kk : Byte) : Statement (.sneImm x kk) :=
  ⟨by decide, by simp only [OpRow.selects, encode, wordOfImmediate_family]; decide⟩
theorem seReg (x y : Reg) : Statement (.seReg x y) :=
  ⟨by decide, by simp only [OpRow.selects, encode, wordOfNibbles_family]; decide⟩
theorem ldImm (x : Reg) (kk : Byte) : Statement (.ldImm x kk) :=
  ⟨by decide, by simp only [OpRow.selects, encode, wordOfImmediate_family]; decide⟩
theorem addImm (x : Reg) (kk : Byte) : Statement (.addImm x kk) :=
  ⟨by decide, by simp only [OpRow.selects, encode, wordOfImmediate_family]; decide⟩
theorem ldReg (x y : Reg) : Statement (.ldReg x y) :=
  ⟨by decide, by simp only [OpRow.selects, encode, wordOfNibbles_key]; decide⟩
theorem orReg (x y : Reg) : Statement (.orReg x y) :=
  ⟨by decide, by simp only [OpRow.selects, encode, wordOfNibbles_key]; decide⟩
theorem andReg (x y : Reg) : Statement (.andReg x y) :=
  ⟨by decide, by simp only [OpRow.selects, encode, wordOfNibbles_key]; decide⟩
theorem xorReg (x y : Reg) : Statement (.xorReg x y) :=
  ⟨by decide, by simp only [OpRow.selects, encode, wordOfNibbles_key]; decide⟩
theorem addReg (x y : Reg) : Statement (.addReg x y) :=
  ⟨by decide, by simp only [OpRow.selects, encode, wordOfNibbles_key]; decide⟩
theorem subReg (x y : Reg) : Statement (.subReg x y) :=
  ⟨by decide, by simp only [OpRow.selects, encode, wordOfNibbles_key]; decide⟩
theorem shr (x : Reg) : Statement (.shr x) :=
  ⟨by decide, by simp only [OpRow.selects, encode, wordOfNibbles_key]; decide⟩
theorem subnReg (x y : Reg) : Statement (.subnReg x y) :=
  ⟨by decide, by simp only [OpRow.selects, encode, wordOfNibbles_key]; decide⟩
theorem shl (x : Reg) : Statement (.shl x) :=
  ⟨by decide, by simp only [OpRow.selects, encode, wordOfNibbles_key]; decide⟩
theorem sneReg (x y : Reg) : Statement (.sneReg x y) :=
  ⟨by decide, by simp only [OpRow.selects, encode, wordOfNibbles_family]; decide⟩
theorem ldI (nnn : BitVec 12) : Statement (.ldI nnn) :=
  ⟨by decide, by simp only [OpRow.selects, encode, wordOfAddress_family]; decide⟩
theorem jpV0 (nnn : BitVec 12) : Statement (.jpV0 nnn) :=
  ⟨by decide, by simp only [OpRow.selects, encode, wordOfAddress_family]; decide⟩
theorem rnd (x : Reg) (kk : Byte) : Statement (.rnd x kk) :=
  ⟨by decide, by simp only [OpRow.selects, encode, wordOfImmediate_family]; decide⟩
theorem drw (x y : Reg) (n : Fin 16) : Statement (.drw x y n) :=
  ⟨by decide, by simp only [OpRow.selects, encode, wordOfNibbles_family]; decide⟩
theorem skp (x : Reg) : Statement (.skp x) :=
  ⟨by decide, by simp only [OpRow.selects, encode, wordOfImmediate_key]; decide⟩
theorem sknp (x : Reg) : Statement (.sknp x) :=
  ⟨by decide, by simp only [OpRow.selects, encode, wordOfImmediate_key]; decide⟩
theorem ldVxDT (x : Reg) : Statement (.ldVxDT x) :=
  ⟨by decide, by simp only [OpRow.selects, encode, wordOfImmediate_low]; decide⟩
theorem ldVxK (x : Reg) : Statement (.ldVxK x) :=
  ⟨by decide, by simp only [OpRow.selects, encode, wordOfImmediate_low]; decide⟩
theorem ldDTVx (x : Reg) : Statement (.ldDTVx x) :=
  ⟨by decide, by simp only [OpRow.selects, encode, wordOfImmediate_low]; decide⟩
theorem ldSTVx (x : Reg) : Statement (.ldSTVx x) :=
  ⟨by decide, by simp only [OpRow.selects, encode, wordOfImmediate_low]; decide⟩
theorem addIVx (x : Reg) : Statement (.addIVx x) :=
  ⟨by decide, by simp only [OpRow.selects, encode, wordOfImmediate_low]; decide⟩
theorem ldFVx (x : Reg) : Statement (.ldFVx x) :=
  ⟨by decide, by simp only [OpRow.selects, encode, wordOfImmediate_low]; decide⟩
theorem ldBVx (x : Reg) : Statement (.ldBVx x) :=
  ⟨by decide, by simp only [OpRow.selects, encode, wordOfImmediate_low]; decide⟩
theorem ldMemVx (x : Reg) : Statement (.ldMemVx x) :=
  ⟨by decide, by simp only [OpRow.selects, encode, wordOfImmediate_low]; decide⟩
theorem ldVxMem (x : Reg) : Statement (.ldVxMem x) :=
  ⟨by decide, by simp only [OpRow.selects, encode, wordOfImmediate_low]; decide⟩
theorem nop (w : Word) : Statement (.nop w) := ⟨w, rfl⟩

end Sys2Proof.Laws.EncodedWordSelectsItsRow
end

