-- ==== Sys2Proof/Tests/Slice0.lean ====
section
/-!
SUPPORT. The model's own tests: words decoded by hand, the vectors of 95_test_vectors.md (each named by its id there), the
well-formedness smoke test, and a witness for the hypotheses of every statement that has some.
-/

namespace Sys2Proof.Tests

open Sys2Proof Sys2Proof.Machine

/-! ## Well-formedness -/

/-- An ill-formed term: the no-op with the word 0x8014, which is 8xy4 (R77). -/
theorem test_wellFormed_refuses_nop_of_add : Instr.wellFormed (.nop 0x8014) = false := by decide

theorem test_wellFormed_accepts_nop : Instr.wellFormed (.nop 0x801F) = true := by decide

/-! ## One word of each row, written out from R75 -/

theorem test_decode_cls : decodeWord 0x00E0 = .cls := by decide
theorem test_decode_ret : decodeWord 0x00EE = .ret := by decide
theorem test_decode_jp : decodeWord 0x1ABC = .jp 0xABC := by decide
theorem test_decode_call : decodeWord 0x2210 = .call 0x210 := by decide
theorem test_decode_seImm : decodeWord 0x357F = .seImm 5 0x7F := by decide
theorem test_decode_sneImm : decodeWord 0x4580 = .sneImm 5 0x80 := by decide
theorem test_decode_seReg : decodeWord 0x5340 = .seReg 3 4 := by decide
theorem test_decode_ldImm : decodeWord 0x60EA = .ldImm 0 0xEA := by decide
theorem test_decode_addImm : decodeWord 0x71FF = .addImm 1 0xFF := by decide
theorem test_decode_ldReg : decodeWord 0x8EF0 = .ldReg 14 15 := by decide
theorem test_decode_orReg : decodeWord 0x8011 = .orReg 0 1 := by decide
theorem test_decode_andReg : decodeWord 0x8012 = .andReg 0 1 := by decide
theorem test_decode_xorReg : decodeWord 0x8013 = .xorReg 0 1 := by decide
theorem test_decode_addReg : decodeWord 0x8014 = .addReg 0 1 := by decide
theorem test_decode_subReg : decodeWord 0x8F15 = .subReg 15 1 := by decide
theorem test_decode_shr : decodeWord 0x8276 = .shr 2 := by decide
theorem test_decode_subnReg : decodeWord 0x8F17 = .subnReg 15 1 := by decide
theorem test_decode_shl : decodeWord 0x820E = .shl 2 := by decide
theorem test_decode_sneReg : decodeWord 0x9340 = .sneReg 3 4 := by decide
theorem test_decode_ldI : decodeWord 0xAFFF = .ldI 0xFFF := by decide
theorem test_decode_jpV0 : decodeWord 0xB300 = .jpV0 0x300 := by decide
theorem test_decode_rnd : decodeWord 0xC30F = .rnd 3 0x0F := by decide
theorem test_decode_drw : decodeWord 0xD125 = .drw 1 2 5 := by decide
theorem test_decode_skp : decodeWord 0xE29E = .skp 2 := by decide
theorem test_decode_sknp : decodeWord 0xE2A1 = .sknp 2 := by decide
theorem test_decode_ldVxDT : decodeWord 0xF107 = .ldVxDT 1 := by decide
theorem test_decode_ldVxK : decodeWord 0xF20A = .ldVxK 2 := by decide
theorem test_decode_ldDTVx : decodeWord 0xF015 = .ldDTVx 0 := by decide
theorem test_decode_ldSTVx : decodeWord 0xF318 = .ldSTVx 3 := by decide
theorem test_decode_addIVx : decodeWord 0xF21E = .addIVx 2 := by decide
theorem test_decode_ldFVx : decodeWord 0xF029 = .ldFVx 0 := by decide
theorem test_decode_ldBVx : decodeWord 0xF033 = .ldBVx 0 := by decide
theorem test_decode_ldMemVx : decodeWord 0xF355 = .ldMemVx 3 := by decide
theorem test_decode_ldVxMem : decodeWord 0xF265 = .ldVxMem 2 := by decide
theorem test_decode_nop : decodeWord 0xF0FF = .nop 0xF0FF := by decide

/-- The same word through the host's reading of a table row. -/
theorem test_decodeTableWord_drw : decodeTableWord 16 0xD125 = some (.drw 1 2 5) := by decide

/-- R76: zero-filled memory is 00E0, and no no-op. -/
theorem test_decode_zero_word : decodeWord 0x0000 = .cls := by decide

theorem test_decode_truncated : decode [0x12] = .error .truncated := by decide

/-! ## Helpers -/

/-- The state after one Cycle with the word placed at `pc`. -/
def after (s : State) (w : Nat) : Option State :=
  match step (s.withFetchWord 16 w) with
  | .next t => some t
  | .fault _ => none
  | .refused _ => none

/-- The reset state with some V registers set. -/
def withV (vs : List (Reg × Byte)) : State := vs.foldl (fun s p => s.setV p.1 p.2) State.reset

/-- The reset state with I set, bytes stored from 0x300 on, and some V registers set. -/
def withI (i : Word) (bytes : List Byte) (vs : List (Reg × Byte)) : State :=
  (vs.foldl (fun s p => s.setV p.1 p.2) State.reset).writeBytes 0x300 bytes |>.setI i

/-- The reset state with some V registers set and a host that presents `keys` and `rnd` at the first tick. -/
def withInput (keys : BitVec 16) (rnd : Byte) (vs : List (Reg × Byte)) : State :=
  { withV vs with inputs := [⟨keys, rnd⟩] }

/-- The reset state with `d` return addresses 0x0345 pushed. -/
def withStack (d : Fin 17) : State := { State.reset with sp := d, stack := Vector.replicate 16 0x0345 }

/-! ## Vectors of 95_test_vectors.md, one Cycle each -/

/-- T1 -/
theorem test_nop_advances_and_ticks : (after { withV [(0, 1), (1, 2)] with dt := 5 } 0x801F).map (fun t => (t.pc, t.dt, t.getV 0, t.getV 1, t.fault)) = some (0x202, 4, 1, 2, none) := by decide

/-- T3 -/
theorem test_nop_family0 : (after State.reset 0x0231).map (fun t => (t.pc, t.fault)) = some (0x202, none) := by decide

/-- T4 -/
theorem test_cls_clears : (after { State.reset with fb := Frame.flip State.reset.fb 3 3 } 0x0000).map (fun t => (t.fb.cell 3 3, t.pc)) = some (false, 0x202) := by decide

/-- T5 -/
theorem test_cls_alias : (after { State.reset with fb := Frame.flip State.reset.fb 3 3 } 0x0230).map (fun t => (t.fb.cell 3 3)) = some false := by decide

/-- T22 -/
theorem test_ret_pops : (after (withStack 1) 0x00EE).map (fun t => (t.sp.val, t.pc, t.stack[0])) = some (0, 0x0345, 0x0345) := by decide

/-- T8 -/
theorem test_ret_underflow : (after State.reset 0x0FFE).map (fun t => (t.fault, t.pc)) = some (some ⟨.stackUnderflow, 0x0200, 0x0FFE⟩, 0x200) := by decide

/-- T16 -/
theorem test_jp_sets_pc : (after State.reset 0x1ABC).map (fun t => t.pc) = some 0x0ABC := by decide

/-- T17 -/
theorem test_jp_to_itself : (after State.reset 0x1200).map (fun t => t.pc) = some 0x200 := by decide

/-- T19 -/
theorem test_call_pushes : (after State.reset 0x2ABC).map (fun t => (t.stack[0], t.sp.val, t.pc)) = some (0x0202, 1, 0x0ABC) := by decide

/-- T21 -/
theorem test_call_overflow : (after (withStack 16) 0x2200).map (fun t => (t.fault, t.sp.val, t.pc, t.stack[15])) = some (some ⟨.stackOverflow, 0x0200, 0x2200⟩, 16, 0x200, 0x0345) := by decide

/-- T25 -/
theorem test_seImm_skips : (after (withV [(5, 0x7F)]) 0x357F).map (fun t => t.pc) = some 0x204 := by decide

/-- T29 -/
theorem test_seImm_flag_register : (after (withV [(15, 1)]) 0x3F01).map (fun t => t.pc) = some 0x204 := by decide

/-- T27 -/
theorem test_sneImm_stays : (after (withV [(5, 0x7F)]) 0x457F).map (fun t => t.pc) = some 0x202 := by decide

/-- T28 -/
theorem test_sneImm_skips : (after (withV [(5, 0x7F)]) 0x4580).map (fun t => t.pc) = some 0x204 := by decide

/-- T6 -/
theorem test_seReg_alias_skips : (after (withV [(1, 9), (2, 9)]) 0x5121).map (fun t => t.pc) = some 0x204 := by decide

/-- T31 -/
theorem test_seReg_stays : (after (withV [(3, 7), (4, 8)]) 0x5340).map (fun t => t.pc) = some 0x202 := by decide

/-- T38 -/
theorem test_ldImm_loads : (after State.reset 0x6AFF).map (fun t => (t.getV 10)) = some 0xFF := by decide

/-- T39 -/
theorem test_ldImm_flag_as_data : (after State.reset 0x6F07).map (fun t => (t.getV 15)) = some 0x07 := by decide

/-- T41 -/
theorem test_addImm_wraps_without_flag : (after (withV [(1, 0xFF)]) 0x7102).map (fun t => (t.getV 1, t.getV 15)) = some (0x01, 0) := by decide

/-- T42 -/
theorem test_addImm_subtracts_one : (after State.reset 0x71FF).map (fun t => (t.getV 1)) = some 0xFF := by decide

/-- T43 -/
theorem test_ldReg_copies : (after (withV [(15, 1)]) 0x8EF0).map (fun t => (t.getV 14)) = some 1 := by decide

/-- T44 -/
theorem test_orReg_keeps_flag : (after (withV [(0, 0xF0), (1, 0x0F), (15, 1)]) 0x8011).map (fun t => (t.getV 0, t.getV 15)) = some (0xFF, 1) := by decide

/-- T45 -/
theorem test_andReg_is_no_modulo : (after (withV [(0, 0x0C), (1, 0x0A)]) 0x8012).map (fun t => (t.getV 0)) = some 0x08 := by decide

/-- T47 -/
theorem test_xorReg_same_register : (after (withV [(0, 0x5A)]) 0x8003).map (fun t => (t.getV 0)) = some 0x00 := by decide

/-- T48 -/
theorem test_addReg_wraps : (after (withV [(0, 0xFF), (1, 0x01)]) 0x8014).map (fun t => (t.getV 0, t.getV 15)) = some (0x00, 1) := by decide

/-- T52 -/
theorem test_addReg_into_flag : (after (withV [(15, 0xFF), (1, 0x02)]) 0x8F14).map (fun t => (t.getV 15)) = some 1 := by decide

/-- T54 -/
theorem test_subReg_equal : (after (withV [(0, 0x07), (1, 0x07)]) 0x8015).map (fun t => (t.getV 0, t.getV 15)) = some (0x00, 1) := by decide

/-- T57 -/
theorem test_subReg_into_flag : (after (withV [(15, 0x01), (1, 0x02)]) 0x8F15).map (fun t => (t.getV 15)) = some 0 := by decide

/-- T59 -/
theorem test_shr_ignores_y : (after (withV [(2, 0x04), (7, 0xFF)]) 0x8276).map (fun t => (t.getV 2, t.getV 15)) = some (0x02, 0) := by decide

/-- T61 -/
theorem test_shr_into_flag : (after (withV [(15, 0x03)]) 0x8F06).map (fun t => (t.getV 15)) = some 1 := by decide

/-- T63 -/
theorem test_subnReg_reverses : (after (withV [(0, 0x07), (1, 0x05)]) 0x8017).map (fun t => (t.getV 0, t.getV 15)) = some (0xFE, 0) := by decide

/-- T64 -/
theorem test_subnReg_into_flag : (after (withV [(15, 0x05), (1, 0x05)]) 0x8F17).map (fun t => (t.getV 15)) = some 1 := by decide

/-- T66 -/
theorem test_shl_by_one : (after (withV [(2, 0x40)]) 0x820E).map (fun t => (t.getV 2, t.getV 15)) = some (0x80, 0) := by decide

/-- T67 -/
theorem test_shl_into_flag : (after (withV [(15, 0x81)]) 0x8F0E).map (fun t => (t.getV 15)) = some 1 := by decide

/-- T33 -/
theorem test_sneReg_skips : (after (withV [(3, 7), (4, 8)]) 0x9340).map (fun t => t.pc) = some 0x204 := by decide

/-- T34 -/
theorem test_sneReg_stays : (after (withV [(3, 7), (4, 7)]) 0x9340).map (fun t => t.pc) = some 0x202 := by decide

/-- T71 -/
theorem test_ldI_loads : (after State.reset 0xAFFF).map (fun t => t.i) = some 0x0FFF := by decide

/-- T36 -/
theorem test_jpV0_passes_the_end : (after (withV [(0, 0xFF)]) 0xBFFF).map (fun t => (t.pc, t.fault)) = some (0x10FE, none) := by decide

/-- T37 -/
theorem test_jpV0_uses_V0_only : (after (withV [(3, 0x55)]) 0xB300).map (fun t => t.pc) = some 0x0300 := by decide

/-- T68 -/
theorem test_rnd_masks : (after (withInput 0 0xA7 []) 0xC30F).map (fun t => (t.getV 3)) = some 0x07 := by decide

/-- T69 -/
theorem test_rnd_zero_mask : (after (withInput 0 0xFF []) 0xC300).map (fun t => (t.getV 3)) = some 0x00 := by decide

/-- T93, WRAP and CLIP -/
theorem test_drw_corner :
    (after (withI 0x300 [0xC0] [(0, 0x7F), (1, 0x3F)]) 0xD011).map
      (fun t => (t.fb.cell 31 63, t.fb.cell 31 0, t.fb.cell 0 63, t.getV 15)) = some (true, true, false, 0) ∧
    (after { withI 0x300 [0xC0] [(0, 0x7F), (1, 0x3F)] with cfg := { Config.default with drawEdge := .clip } } 0xD011).map
      (fun t => (t.fb.cell 31 63, t.fb.cell 31 0, t.getV 15)) = some (true, false, 0) := by decide

/-- T94: the flag is sticky within a draw (R173). -/
theorem test_drw_collision_sticky :
    (after { withI 0x300 [0x80, 0x80] [] with fb := Frame.flip State.reset.fb 0 0 } 0xD012).map
      (fun t => (t.fb.cell 0 0, t.fb.cell 1 0, t.getV 15)) = some (false, true, 1) := by decide

/-- T7 -/
theorem test_skp_alias_skips : (after (withInput 0x0008 0 [(0, 3)]) 0xE0FE).map (fun t => t.pc) = some 0x204 := by decide

/-- T100 -/
theorem test_skp_key_index : (after (withV [(0, 16)]) 0xE09E).map (fun t => (t.fault, t.pc)) = some (some ⟨.keyIndex, 0x0200, 0xE09E⟩, 0x200) := by decide

/-- T98 -/
theorem test_sknp_skips : (after (withV [(2, 7)]) 0xE2A1).map (fun t => t.pc) = some 0x204 := by decide

/-- T99 -/
theorem test_sknp_key_15 : (after (withInput 0x8000 0 [(0, 15)]) 0xE0A1).map (fun t => t.pc) = some 0x202 := by decide

/-- T106 -/
theorem test_ldVxDT_before_tick : (after { State.reset with dt := 2 } 0xF107).map (fun t => (t.getV 1, t.dt)) = some (2, 1) := by decide

/-- T102 -/
theorem test_ldVxK_stalls : (after { State.reset with dt := 3 } 0xF20A).map (fun t => (t.pc, t.dt, t.getV 2)) = some (0x200, 2, 0) := by decide

/-- T103 -/
theorem test_ldVxK_least_key : (after (withInput 0x0280 0 []) 0xF20A).map (fun t => (t.getV 2, t.pc)) = some (7, 0x202) := by decide

/-- T107 -/
theorem test_ldDTVx_ticks_at_once : (after (withV [(0, 3)]) 0xF015).map (fun t => t.dt) = some 2 := by decide

/-- T110 -/
theorem test_ldSTVx_ticks_at_once : (after (withV [(3, 0x10)]) 0xF318).map (fun t => t.st) = some 0x0F := by decide

/-- T73 -/
theorem test_addIVx_no_12_bit_reduction : (after (withI 0x0FFF [] [(0, 1)]) 0xF01E).map (fun t => (t.i, t.getV 15)) = some (0x1000, 0) := by decide

/-- T74 -/
theorem test_addIVx_wraps : (after (withI 0xFFFF [] [(0, 1)]) 0xF01E).map (fun t => (t.i, t.getV 15)) = some (0x0000, 0) := by decide

/-- T76 -/
theorem test_ldFVx_unmasked : (after (withV [(0, 0xFF)]) 0xF029).map (fun t => (t.i, t.fault)) = some (0x054B, none) := by decide

/-- T79 -/
theorem test_ldBVx_at_the_top : (after (withI 0x0FFD [] [(0, 0xFF)]) 0xF033).map (fun t => (t.readBytes 0xFFD 3)) = some [2, 5, 5] := by decide

/-- T80 -/
theorem test_ldBVx_bounds : (after (withI 0x0FFE [] [(0, 0xFF)]) 0xF033).map (fun t => (t.fault, t.readBytes 0xFFE 2, t.pc)) = some (some ⟨.memoryBounds, 0x0200, 0xF033⟩, [0, 0], 0x200) := by decide

/-- T81 -/
theorem test_ldMemVx_at_the_top : (after (withI 0x0FFC [] [(0, 0x11), (1, 0x22), (2, 0x33), (3, 0x44)]) 0xF355).map (fun t => (t.readBytes 0xFFC 4, t.i)) = some ([0x11, 0x22, 0x33, 0x44], 0x0FFC) := by decide

/-- T82 -/
theorem test_ldMemVx_bounds : (after (withI 0x0FFE [] [(0, 0x11), (1, 0x22), (2, 0x33), (3, 0x44)]) 0xF355).map (fun t => (t.fault, t.readBytes 0xFFE 2)) = some (some ⟨.memoryBounds, 0x0200, 0xF355⟩, [0, 0]) := by decide

/-- T85 -/
theorem test_ldVxMem_stops_at_x : (after (withI 0x300 [2, 3, 4] [(3, 0x99)]) 0xF265).map (fun t => (t.getV 0, t.getV 1, t.getV 2, t.getV 3)) = some (2, 3, 4, 0x99) := by decide

/-- T86 -/
theorem test_ldVxMem_bounds : (after (withI 0x1000 [] []) 0xF065).map (fun t => (t.fault, t.getV 0)) = some (some ⟨.memoryBounds, 0x0200, 0xF065⟩, 0) := by decide

/-! ## The Cycle, reset and boot -/

/-- T10 -/
theorem test_fetch_bounds :
    (after { State.reset with pc := 0x0FFF } 0).map (fun t => (t.fault, t.pc)) =
      some (some ⟨.fetchBounds, 0x0FFF, 0⟩, 0x0FFF) := by decide

/-- T13 -/
theorem test_halted_timers_stop :
    (after { State.reset with fault := some ⟨.stackUnderflow, 0x0202, 0x00EE⟩, dt := 9 } 0x6001).map
      (fun t => (t.dt, t.pc, t.getV 0)) = some (9, 0x200, 0) := by decide

/-- T15 -/
theorem test_timers_floor :
    (after { State.reset with st := 255 } 0x6000).map (fun t => (t.dt, t.st)) = some (0, 254) := by decide

/-- The fetched word stands in the opcode latch after a Cycle that completes (R32). -/
theorem test_op_latched : (after State.reset 0x6AFF).map (fun t => t.op) = some 0x6AFF := by decide

/-- R22: the last byte of glyph F in the default font. -/
theorem test_font_last_byte : State.reset.readByte 0x09F = 0x80 := by decide

/-- R22: the table of the default font, glyphs 1 to 4, 9, B and C, from the addresses it gives. -/
theorem test_font_glyphs :
    State.reset.readBytes 0x055 5 = [0x20, 0x60, 0x20, 0x20, 0x70] ∧
    State.reset.readBytes 0x05A 5 = [0xF0, 0x10, 0xF0, 0x80, 0xF0] ∧
    State.reset.readBytes 0x05F 5 = [0xF0, 0x10, 0xF0, 0x10, 0xF0] ∧
    State.reset.readBytes 0x064 5 = [0x90, 0x90, 0xF0, 0x10, 0x10] ∧
    State.reset.readBytes 0x07D 5 = [0xF0, 0x90, 0xF0, 0x10, 0xF0] ∧
    State.reset.readBytes 0x087 5 = [0xE0, 0x90, 0xE0, 0x90, 0xE0] ∧
    State.reset.readBytes 0x08C 5 = [0xF0, 0x80, 0x80, 0x80, 0xF0] := by decide

/-- R22: glyph A of the default font. -/
theorem test_font_glyph_A : State.reset.readBytes 0x082 5 = [0xF0, 0x90, 0xF0, 0x90, 0x90] := by decide

/-- R245: an image of 3585 bytes is refused. -/
theorem test_boot_oversize : (boot Config.default (List.replicate 3585 0) []).isSome = false := by
  rw [boot, List.length_replicate]; decide

/-- R244: an image of odd length; its last byte is the high half of a word. -/
theorem test_boot_odd :
    (boot Config.default [0x12, 0x34, 0x60] []).map (fun s => s.readBytes 0x200 4) = some [0x12, 0x34, 0x60, 0] := by
  decide

/-! ## Witnesses for the hypotheses of the statements -/

/-- An outcome that answers a next state with a property gives that state. -/
theorem exists_next (o : Host.Outcome State Fault Refusal) (p : State → Bool)
    (h : (match o with | .next t => p t | .fault _ => false | .refused _ => false) = true) :
    ∃ t, o = .next t ∧ p t = true := by
  cases o with
  | next t => exact ⟨t, rfl, h⟩
  | fault r => exact absurd h (by simp)
  | refused r => exact absurd h (by simp)

/-- A running state whose next instruction is the word. -/
def at200 (s : State) (w : Nat) : State := s.withFetchWord 16 w

theorem witness_ResetLeavesTheStatedValues :
    State.resetWith Config.default [⟨0x8000, 0xFF⟩] = State.resetWith Config.default [⟨0x8000, 0xFF⟩] ∧
    ((0x04F < 0x050 ∨ (0x0A0 ≤ 0x04F ∧ 0x04F < 4096)) ∧ (0x0A0 < 0x050 ∨ (0x0A0 ≤ 0x0A0 ∧ 0x0A0 < 4096))) ∧ 79 < 80 := by
  decide

/-- The longest image, and one byte more. -/
theorem witness_BootPlacesTheImageOrRefusesIt :
    (List.replicate 3584 (0 : Byte)).length ≤ 3584 ∧ 3584 < (List.replicate 3585 (0 : Byte)).length := by
  simp only [List.length_replicate]; decide

theorem witness_DecodeOfEncodeIsTheInstruction : WellFormed (.drw 15 15 15) ∧ WellFormed (.nop 0xFFFF) := by decide

theorem witness_FetchIsBigEndian : (at200 { State.reset with pc := 4094 } 0x1234).fetch = some 0x1234 := by decide

theorem witness_StepRunsTheDecodedInstruction :
    (at200 State.reset 0x8014).fault = none ∧ (at200 State.reset 0x8014).pc.toNat ≤ 4094 ∧
    decode [(at200 State.reset 0x8014).readByte 0x200, (at200 State.reset 0x8014).readByte 0x201]
      = .ok (.addReg 0 1, []) ∧ WellFormed (.addReg 0 1) :=
  ⟨rfl, by decide, rfl, rfl⟩

theorem witness_HaltedMachineDoesNothingUntilReset :
    State.Halted { State.reset with fault := some ⟨.keyIndex, 0x200, 0xE09E⟩ } := by
  simp [State.Halted]

theorem witness_FetchPastTheEndFaults :
    ({ State.reset with pc := 4095 } : State).fault = none ∧ 4094 < ({ State.reset with pc := 4095 } : State).pc.toNat := by
  decide

/-- One witness for a handler's fault, one for an instruction that completes, one for the fetch's own fault. -/
theorem witness_FaultsAreExactlyTheListedOnes :
    (State.reset.fault = none ∧ ∃ t, exec .ret State.reset = .next t ∧ (t.fault ≠ none : Bool) = true) ∧
    (∃ t, exec .cls State.reset = .next t ∧ (t.fault = none : Bool) = true) ∧
    (∃ t, step { State.reset with pc := 4095 } = .next t ∧ (t.fault ≠ none : Bool) = true) :=
  ⟨⟨rfl, exists_next _ _ (by decide)⟩, exists_next _ _ (by decide), exists_next _ _ (by decide)⟩

theorem witness_FaultingCycleChangesOnlyTheLatch :
    (at200 State.reset 0x00EE).fault = none ∧
    ∃ t, step (at200 State.reset 0x00EE) = .next t ∧
      decide (t.fault = some ⟨.stackUnderflow, 0x200, 0x00EE⟩) = true :=
  ⟨rfl, exists_next _ _ (by decide)⟩

theorem witness_TimersStepOncePerCycle :
    (at200 (withV [(0, 3)]) 0xF015).fault = none ∧
    ∃ t, step (at200 (withV [(0, 3)]) 0xF015) = .next t ∧ decide (t.fault = none) = true :=
  ⟨rfl, exists_next _ _ (by decide)⟩

/-- A Cycle that completes, and one that faults, both at the highest address that can be fetched from. -/
theorem witness_PcAfterTheCycleIsAsTabled :
    (at200 { State.reset with pc := 4094 } 0x3000).fault = none ∧
    (at200 { State.reset with pc := 4094 } 0x3000).pc.toNat ≤ 4094 ∧
    (∃ t, step (at200 { State.reset with pc := 4094 } 0x3000) = .next t ∧ decide (t.fault = none) = true) ∧
    (∃ t, step (at200 { State.reset with pc := 4094 } 0x00EE) = .next t ∧ decide (t.fault ≠ none) = true) :=
  ⟨rfl, by decide, exists_next _ _ (by decide), exists_next _ _ (by decide)⟩

theorem witness_EveryStepKeepsMemoryCanonical :
    (at200 (withI 0x0FFD [] [(0, 0xFF)]) 0xF033).MemoryCanonical ∧
    ∃ t, step (at200 (withI 0x0FFD [] [(0, 0xFF)]) 0xF033) = .next t ∧ decide (t.fault = none) = true :=
  ⟨by unfold State.MemoryCanonical; decide, exists_next _ _ (by decide)⟩

theorem witness_EveryStepKeepsPcAndStackInRange :
    (at200 (withV [(0, 0xFF)]) 0xBFFF).PcStackInRange ∧
    ∃ t, step (at200 (withV [(0, 0xFF)]) 0xBFFF) = .next t ∧ decide (t.pc = 0x10FE) = true :=
  ⟨by unfold State.PcStackInRange; decide, exists_next _ _ (by decide)⟩

/-- A running state about to fault, and a halted one. -/
theorem witness_EveryStepKeepsTheLatchJustified :
    ((at200 State.reset 0x00EE).LatchJustified ∧
      ∃ t, step (at200 State.reset 0x00EE) = .next t ∧ decide (t.fault ≠ none) = true) ∧
    State.LatchJustified { at200 State.reset 0x00EE with fault := some ⟨.stackUnderflow, 0x200, 0x00EE⟩ } :=
  ⟨⟨trivial, exists_next _ _ (by decide)⟩, rfl, rfl, rfl⟩

theorem witness_CanonicalMemoriesThatReadAlikeAreEqual :
    Memory.wf Config.default [(0x300, 1), (0xFFF, 2)] = true ∧
    ∀ a, a < 4096 → Memory.read Config.default [(0x300, 1), (0xFFF, 2)] a
      = Memory.read Config.default [(0x300, 1), (0xFFF, 2)] a :=
  ⟨by decide, fun _ _ => rfl⟩

/-- Premise of the statements over every instruction: `exec` answers a next state, and the instruction is none of those
named. -/
theorem witness_OnlyStoresTouchMemoryOnlyDrawsTheScreen :
    (∃ t, exec (.addReg 0 1) State.reset = .next t) ∧ (∀ x, Instr.addReg 0 1 ≠ .ldBVx x) ∧
    (∀ x, Instr.addReg 0 1 ≠ .ldMemVx x) ∧ Instr.addReg 0 1 ≠ .cls ∧ ∀ x y n, Instr.addReg 0 1 ≠ .drw x y n := by
  refine ⟨⟨_, rfl⟩, ?_, ?_, ?_, ?_⟩ <;> simp

theorem witness_OnlyTheirWritersTouchIndexStackTimers :
    (∃ t, exec (.addReg 0 1) State.reset = .next t) ∧ (∀ a, Instr.addReg 0 1 ≠ .ldI a) ∧
    (∀ x, Instr.addReg 0 1 ≠ .addIVx x) ∧ (∀ x, Instr.addReg 0 1 ≠ .ldFVx x) ∧ (∀ a, Instr.addReg 0 1 ≠ .call a) ∧
    Instr.addReg 0 1 ≠ .ret ∧ (∀ x, Instr.addReg 0 1 ≠ .ldDTVx x) ∧ ∀ x, Instr.addReg 0 1 ≠ .ldSTVx x := by
  refine ⟨⟨_, rfl⟩, ?_, ?_, ?_, ?_, ?_, ?_, ?_⟩ <;> simp

theorem witness_NoInstructionWritesInputsOrParameters :
    (∃ t, exec (.ldVxK 0) State.reset = .next t ∧ decide (t.keys = 0) = true) ∧
    ∃ t, step (withInput 0x8000 0 []) = .next t ∧ decide (t.keys = 0x8000) = true :=
  ⟨exists_next _ _ (by decide), exists_next _ _ (by decide)⟩

/-- An instruction that may not write V1 and writes no flag; a flag writer that does not fault; a draw, which may not write VF as
data but does as a flag. -/
theorem witness_RegistersAndFlagChangeOnlyAsListed :
    ((∃ t, exec (.ldImm 0 7) State.reset = .next t) ∧ writesReg (.ldImm 0 7) 1 = false) ∧
    (writesReg (.ldImm 0 7) 15 = false ∧ writesFlag (.ldImm 0 7) = false) ∧
    (writesFlag (.drw 0 1 15) = true ∧ expectedFault (.drw 0 1 15) State.reset = none) :=
  ⟨⟨⟨_, rfl⟩, by decide⟩, by decide, by decide⟩

theorem witness_OpcodeLatchIsUnobservable :
    (at200 State.reset 0x6AFF).fault = none ∧
    ∃ t, step (at200 State.reset 0x6AFF) = .next t ∧ decide (t.fault = none) = true :=
  ⟨rfl, exists_next _ _ (by decide)⟩

theorem witness_InputsReachOnlyTheirReaders :
    (at200 State.reset 0x6AFF).fault = none ∧
    (∃ t, tick (at200 State.reset 0x6AFF) 0xFFFF 0xFF = .next t ∧ decide (t.getV 10 = 0xFF) = true) ∧
    (∀ x kk, (at200 State.reset 0x6AFF).nextInstr ≠ .rnd x kk) ∧ (∀ x, (at200 State.reset 0x6AFF).nextInstr ≠ .skp x) ∧
    (∀ x, (at200 State.reset 0x6AFF).nextInstr ≠ .sknp x) ∧ ∀ x, (at200 State.reset 0x6AFF).nextInstr ≠ .ldVxK x := by
  have h : (at200 State.reset 0x6AFF).nextInstr = .ldImm 10 0xFF := by decide
  refine ⟨rfl, exists_next _ _ (by decide), ?_, ?_, ?_, ?_⟩ <;> simp [h]

theorem witness_RandomByteIsMasked :
    (at200 State.reset 0xC30F).fault = none ∧ (at200 State.reset 0xC30F).pc.toNat ≤ 4094 ∧
    (at200 State.reset 0xC30F).nextInstr = .rnd 3 0x0F := by decide

/-- The last I that fits, and the next. -/
theorem witness_StoreDecimalDigits :
    (withI 4093 [] []).MemoryCanonical ∧ (withI 4093 [] []).i.toNat ≤ 4093 ∧ 4093 < (withI 4094 [] []).i.toNat :=
  ⟨rfl, by decide, by decide⟩

theorem witness_StoreRegistersToMemory :
    (withI 4080 [] []).MemoryCanonical ∧ (withI 4080 [] []).i.toNat + (15 : Reg).val ≤ 4095 ∧
    4095 < (withI 4081 [] []).i.toNat + (15 : Reg).val :=
  ⟨rfl, by decide, by decide⟩

theorem witness_LoadRegistersFromMemory :
    (withI 4080 [] []).i.toNat + (15 : Reg).val ≤ 4095 ∧ 4095 < (withI 4096 [] []).i.toNat + (0 : Reg).val := by decide

theorem witness_StoreThenLoadRestoresTheRegisters :
    (withI 0x400 [] [(3, 0x44)]).MemoryCanonical ∧ (withI 0x400 [] [(3, 0x44)]).i.toNat + (3 : Reg).val ≤ 4095 ∧
    ∃ t t' : State, exec (.ldMemVx 3) (withI 0x400 [] [(3, 0x44)]) = .next t ∧ t'.mem = t.mem ∧ t'.cfg = t.cfg ∧
      t'.i = t.i ∧ t'.getV 3 = 0 :=
  ⟨rfl, by decide, _, (withI 0x400 [] []).writeBytes 0x400 [0, 0, 0, 0x44], rfl, by decide, rfl, rfl, by decide⟩

theorem witness_FontDigitZeroReadsBack :
    (State.reset).getV 3 = 0 ∧ ∀ a, 0x050 ≤ a → a < 0x055 → State.reset.readByte a = initialByte State.reset.cfg a :=
  ⟨by decide, fun _ _ _ => rfl⟩

/-- An empty sprite with I beyond memory, the last row that fits, the first that does not; a sprite that covers a set cell,
and one that covers none. -/
theorem witness_DrawTogglesExactlyTheSpriteCells :
    ((0 : Fin 16).val = 0 ∧ (withI 4095 [] []).i.toNat + ((1 : Fin 16).val - 1) ≤ 4095) ∧
    (0 < (1 : Fin 16).val ∧ 4095 < (withI 4096 [] []).i.toNat + ((1 : Fin 16).val - 1)) ∧
    (SpriteCovers { withI 0x050 [] [] with fb := Frame.flip State.reset.fb 0 0 } 0 1 1 0 0 ∧
      Frame.cell (Frame.flip State.reset.fb 0 0) 0 0 = true) ∧
    ¬ SpriteCovers (withI 0x050 [] []) 0 1 0 0 0 := by
  refine ⟨by decide, by decide, ⟨⟨0, 0, by decide, by decide, by decide, by decide, by decide⟩, by decide⟩, ?_⟩
  rintro ⟨k, _, hk, _⟩
  exact absurd hk (Nat.not_lt_zero k)

theorem witness_EdgePoliciesAgreeInsideTheGrid :
    ((withV [(0, 56), (1, 17)]).getV 0).toNat % 64 ≤ 56 ∧
    ((withV [(0, 56), (1, 17)]).getV 1).toNat % 32 + (15 : Fin 16).val ≤ 32 := by decide

theorem witness_DrawingTwiceRestoresTheScreen :
    ((5 : Fin 16).val = 0 ∨ (withI 0x050 [] [(1, 62), (2, 30)]).i.toNat + ((5 : Fin 16).val - 1) ≤ 4095) ∧
    ∃ t, exec (.drw 1 2 5) (withI 0x050 [] [(1, 62), (2, 30)]) = .next t ∧
      decide (t.getV 1 = 62 ∧ t.getV 2 = 30) = true :=
  ⟨by decide, exists_next _ _ (by decide)⟩

theorem witness_CallPushesAndJumps : (withStack 15).sp.val < 16 ∧ (withStack 16).sp.val = 16 := by decide

theorem witness_ReturnPopsThePc : (withStack 1).sp.val ≠ 0 ∧ (withStack 0).sp.val = 0 := by decide

theorem witness_ReturnGoesToTheInstructionAfterTheCall :
    (withStack 15).sp.val < 16 ∧ ∃ t t' : State, exec (.call 0x210) (withStack 15) = .next t ∧ t'.stack = t.stack ∧
      t'.sp = t.sp ∧ t'.pc = 0x214 :=
  ⟨by decide, _, { withStack 16 with stack := (withStack 15).stack.set 15 0x200, pc := 0x214 }, rfl, rfl, rfl, rfl⟩

theorem witness_KeySkipsTestTheNamedKey :
    ((withV [(0, 15)]).getV 0).toNat ≤ 15 ∧ 15 < ((withV [(0, 16)]).getV 0).toNat := by decide

theorem witness_WaitForKeyStallsOrTakesTheLeastKey :
    State.reset.keys = 0 ∧ ({ State.reset with keys := 0x8000 } : State).keys ≠ 0 := by decide

theorem witness_NoOpOnlyAdvances :
    (at200 State.reset 0x801F).fault = none ∧ (at200 State.reset 0x801F).pc.toNat ≤ 4094 ∧
    (at200 State.reset 0x801F).nextInstr = .nop 0x801F := by decide

theorem witness_SelfJumpOnlyRunsTheTimersDown :
    (at200 { State.reset with dt := 255, st := 3 } 0x1200).AtSelfJump ∧ 255 ≤ 255 :=
  ⟨⟨rfl, by decide, by decide⟩, le_rfl⟩

end Sys2Proof.Tests
end

