-- ==== Sys2Proof/Proofs/Effect.lean ====
section
/-!
SUPPORT. What an instruction can do, said once: the shapes of state change the handlers have. That a field survives, or that
an invariant is kept, is then a case analysis over these shapes and not over the 35 handlers.
-/

namespace Sys2Proof.Machine

/-- `ExecEffect i s t`: the handler of `i` may take `s` to `t`, read off the updates it makes. A shape that several
instructions share carries what the spec's tables say of them (`writesReg`, `writesFlag`, `expectedFault`). -/
inductive ExecEffect : Instr → State → State → Prop where
  | raises {i s c} (hc : expectedFault i s = some c) : ExecEffect i s (raise s c)
  | movesPc {i s w} (hf : writesFlag i = false) : ExecEffect i s (s.jump w)
  | setsReg {i s x b} (hx : writesReg i x = true) (hf : writesFlag i = false) : ExecEffect i s (s.setV x b)
  | setsResultAndFlag {i s x b f} (hx : writesReg i x = true) (hf : writesFlag i = true) :
      ExecEffect i s (s.setResultFlag x b (flagByte f))
  | loadsRegs {s} (x) : ExecEffect (.ldVxMem x) s (s.loadRegs x)
  | loadsIndex {s w} (nnn) : ExecEffect (.ldI nnn) s (s.setI w)
  | addsToIndex {s w} (x) : ExecEffect (.addIVx x) s (s.setI w)
  | pointsAtGlyph {s w} (x) : ExecEffect (.ldFVx x) s (s.setI w)
  | setsDelay {s b} (x) : ExecEffect (.ldDTVx x) s (s.setDT b)
  | setsSound {s b} (x) : ExecEffect (.ldSTVx x) s (s.setST b)
  | returns {s sp w} : ExecEffect .ret s { s with sp := sp, pc := w }
  | calls {s stack sp w} (nnn) : ExecEffect (.call nnn) s { s with stack := stack, sp := sp, pc := w }
  | clears {s} : ExecEffect .cls s { s with fb := Frame.clear }
  | draws {s fb f} (x y n) : ExecEffect (.drw x y n) s (State.setVF { s with fb := fb } (flagByte f))
  | storesDigits {s bs} (x) (hfit : s.i.toNat + bs.length ≤ 4096) :
      ExecEffect (.ldBVx x) s (s.writeBytes s.i.toNat bs)
  | storesRegs {s bs} (x) (hfit : s.i.toNat + bs.length ≤ 4096) :
      ExecEffect (.ldMemVx x) s (s.writeBytes s.i.toNat bs)

variable {i : Instr} {s t : State}

/-- A skip moves at most the program counter (R110). -/
theorem State.skipIf_eq_jump (s : State) (c : Bool) : s.skipIf c = s.jump (if c then s.pc + 2 else s.pc) := by
  cases c <;> rfl

theorem ExecEffect.skipIf {c : Bool} (hf : writesFlag i = false) : ExecEffect i s (s.skipIf c) := by
  rw [State.skipIf_eq_jump]
  exact .movesPc hf

/-- Both key skips raise KeyIndex or skip (R190, R191). -/
theorem ExecEffect.keySkip {want : Bool} {x : Reg} (hf : writesFlag i = false)
    (hi : expectedFault i s = if (s.getV x).toNat > 15 then some .keyIndex else none) :
    ExecEffect i s (keySkip want x s) := by
  by_cases hk : 15 < (s.getV x).toNat
  · rw [keySkip_outside want x s hk]
    exact .raises (hi.trans (if_pos hk))
  · rw [keySkip_inside want x s (Nat.le_of_not_lt hk)]
    exact .skipIf hf

theorem execRet_effect (s : State) : ∃ t, execRet s = .next t ∧ ExecEffect .ret s t := by
  by_cases hsp : s.sp.val = 0
  · exact ⟨_, execRet_empty s hsp, .raises (if_pos hsp)⟩
  · exact ⟨_, execRet_pops s hsp, .returns⟩

theorem execCall_effect (nnn : BitVec 12) (s : State) : ∃ t, execCall nnn s = .next t ∧ ExecEffect (.call nnn) s t := by
  by_cases hsp : s.sp.val = 16
  · exact ⟨_, execCall_full nnn s hsp, .raises (if_pos hsp)⟩
  · exact ⟨_, execCall_pushes nnn s (by omega), .calls nnn⟩

theorem execDrw_effect (x y : Reg) (n : Fin 16) (s : State) :
    ∃ t, execDrw x y n s = .next t ∧ ExecEffect (.drw x y n) s t := by
  by_cases hout : 1 ≤ n.val ∧ s.i.toNat + (n.val - 1) > 4095
  · exact ⟨_, execDrw_outside x y n s hout.1 hout.2, .raises (if_pos hout)⟩
  · exact ⟨_, execDrw_inside x y n s (by omega), .draws x y n⟩

theorem execLdBVx_effect (x : Reg) (s : State) : ∃ t, execLdBVx x s = .next t ∧ ExecEffect (.ldBVx x) s t := by
  by_cases hout : s.i.toNat + 2 > 4095
  · exact ⟨_, execLdBVx_outside x s (by omega), .raises (if_pos hout)⟩
  · have hfit : s.i.toNat + (decimalDigits (s.getV x)).length ≤ 4096 := by
      rw [show (decimalDigits (s.getV x)).length = 3 from rfl]; omega
    exact ⟨_, execLdBVx_inside x s (by omega), .storesDigits x hfit⟩

theorem execLdMemVx_effect (x : Reg) (s : State) : ∃ t, execLdMemVx x s = .next t ∧ ExecEffect (.ldMemVx x) s t := by
  by_cases hout : s.i.toNat + x.val > 4095
  · exact ⟨_, execLdMemVx_outside x s hout, .raises (if_pos hout)⟩
  · have hfit : s.i.toNat + (s.regBlock x).length ≤ 4096 := by
      rw [State.regBlock_length]; omega
    exact ⟨_, execLdMemVx_inside x s (by omega), .storesRegs x hfit⟩

theorem execLdVxMem_effect (x : Reg) (s : State) : ∃ t, execLdVxMem x s = .next t ∧ ExecEffect (.ldVxMem x) s t := by
  by_cases hout : s.i.toNat + x.val > 4095
  · exact ⟨_, execLdVxMem_outside x s hout, .raises (if_pos hout)⟩
  · exact ⟨_, execLdVxMem_inside x s (by omega), .loadsRegs x⟩

theorem execLdVxK_effect (x : Reg) (s : State) : ∃ t, execLdVxK x s = .next t ∧ ExecEffect (.ldVxK x) s t := by
  unfold execLdVxK
  cases s.leastKey with
  | none => exact ⟨_, rfl, .movesPc rfl⟩
  | some k => exact ⟨_, rfl, .setsReg (by simp [writesReg]) rfl⟩

/-- Every instruction answers a next state, by one of the shapes. -/
theorem exec_answers (i : Instr) (s : State) : ∃ t, exec i s = .next t ∧ ExecEffect i s t := by
  cases i with
  | cls => exact ⟨_, rfl, .clears⟩
  | ret => exact execRet_effect s
  | call nnn => exact execCall_effect nnn s
  | jp _ | jpV0 _ => exact ⟨_, rfl, .movesPc rfl⟩
  | nop _ => exact ⟨_, rfl, .movesPc (w := s.pc) rfl⟩
  | seImm _ _ | sneImm _ _ | seReg _ _ | sneReg _ _ => exact ⟨_, rfl, .skipIf rfl⟩
  | skp _ | sknp _ => exact ⟨_, rfl, .keySkip rfl rfl⟩
  | ldImm x _ | addImm x _ | ldReg x _ | orReg x _ | andReg x _ | xorReg x _ | rnd x _ | ldVxDT x =>
    exact ⟨_, rfl, .setsReg (by simp [writesReg]) rfl⟩
  | addReg x _ | subReg x _ | shr x | subnReg x _ | shl x =>
    exact ⟨_, rfl, .setsResultAndFlag (by simp [writesReg]) rfl⟩
  | ldI nnn => exact ⟨_, rfl, .loadsIndex nnn⟩
  | addIVx x => exact ⟨_, rfl, .addsToIndex x⟩
  | ldFVx x => exact ⟨_, rfl, .pointsAtGlyph x⟩
  | ldDTVx x => exact ⟨_, rfl, .setsDelay x⟩
  | ldSTVx x => exact ⟨_, rfl, .setsSound x⟩
  | drw x y n => exact execDrw_effect x y n s
  | ldVxK x => exact execLdVxK_effect x s
  | ldBVx x => exact execLdBVx_effect x s
  | ldMemVx x => exact execLdMemVx_effect x s
  | ldVxMem x => exact execLdVxMem_effect x s

/-- The inversion of `exec`: whatever it answers has one of the shapes. -/
theorem exec_effect (h : exec i s = .next t) : ExecEffect i s t := by
  obtain ⟨u, hu, heff⟩ := exec_answers i s
  obtain rfl : u = t := by simpa [hu] using h
  exact heff

end Sys2Proof.Machine
end

