-- ==== Sys2Proof/Proofs/MemoryForm.lean ====
section
/-!
PROOFS. The canonical form of memory: every step keeps it, and a memory has only one.
-/

namespace Sys2Proof.Machine

/-- Every store has passed its bounds check before it writes (R55), so it stays below 4096. -/
theorem ExecEffect.memoryCanonical {i : Instr} {s t : State} (h : ExecEffect i s t) (hs : s.MemoryCanonical) :
    t.MemoryCanonical := by
  cases h with
  | storesDigits _ hfit => exact State.MemoryForm_writeBytes _ hfit hs
  | storesRegs _ hfit => exact State.MemoryForm_writeBytes _ hfit hs
  | _ => simpa [State.MemoryCanonical] using hs

/-- Settles O20: of a step's phases only the handler can store. -/
theorem everyStepKeepsMemoryCanonical : Obligations.EveryStepKeepsMemoryCanonical := by
  intro s t hs h
  obtain ⟨-, rfl⟩ | ⟨-, -, rfl⟩ | ⟨-, -, u, hu, rfl⟩ := step_cases h
  · exact hs
  · simpa [State.MemoryCanonical] using hs
  · have hadvanced : (s.sample.advance (s.readWord s.pc.toNat)).MemoryCanonical := by
      simpa [State.MemoryCanonical] using hs
    simpa [State.MemoryCanonical] using (exec_effect hu).memoryCanonical hadvanced

/-- A listed byte shows: the address of the first entry reads as no list that starts further up does. -/
theorem Memory.read_head_ne (c : Config) {lo k : Nat} {b : Byte} {m m' : Memory}
    (hm : Memory.wfFrom c lo ((k, b) :: m) = true) (hm' : Memory.wfFrom c (k + 1) m' = true) :
    Memory.read c ((k, b) :: m) k ≠ Memory.read c m' k := by
  obtain ⟨-, -, hb, -⟩ := (Memory.wfFrom_cons ..).1 hm
  rw [Memory.read_below c m' hm' (Nat.lt_succ_self k)]
  simpa [Memory.read] using hb

/-- Lists in form from `lo` on are determined by what they read from `lo` on. -/
theorem Memory.eq_of_read_eq (c : Config) (m : Memory) : ∀ {lo : Nat} {m' : Memory},
    Memory.wfFrom c lo m = true → Memory.wfFrom c lo m' = true →
    (∀ a, lo ≤ a → a < 4096 → Memory.read c m a = Memory.read c m' a) → m = m' := by
  induction m with
  | nil =>
    rintro lo (_ | ⟨⟨k, b⟩, m'⟩) _ hm' hread
    · rfl
    · obtain ⟨hlo, hk, -, -⟩ := (Memory.wfFrom_cons ..).1 hm'
      exact absurd (hread k hlo hk).symm (Memory.read_head_ne c hm' rfl)
  | cons e m ih =>
    obtain ⟨k, b⟩ := e
    rintro lo (_ | ⟨⟨k', b'⟩, m'⟩) hm hm' hread
    all_goals obtain ⟨hlo, hk, hb, htail⟩ := (Memory.wfFrom_cons ..).1 hm
    · exact absurd (hread k hlo hk) (Memory.read_head_ne c hm rfl)
    · obtain ⟨hlo', hk', hb', htail'⟩ := (Memory.wfFrom_cons ..).1 hm'
      obtain hlt | rfl | hgt := Nat.lt_trichotomy k k'
      · exact absurd (hread k hlo hk)
          (Memory.read_head_ne c hm ((Memory.wfFrom_cons ..).2 ⟨hlt, hk', hb', htail'⟩))
      · obtain rfl : b = b' := by simpa [Memory.read] using hread k hlo hk
        have htails : m = m' := ih htail htail' fun a hka ha => by
          simpa [Memory.read, show a ≠ k by omega] using hread a (by omega) ha
        rw [htails]
      · exact absurd (hread k' hlo' hk').symm
          (Memory.read_head_ne c hm' ((Memory.wfFrom_cons ..).2 ⟨hgt, hk, hb, htail⟩))

/-- Settles O23, from the uniqueness of a list in form from address 0 on. -/
theorem canonicalMemoriesThatReadAlikeAreEqual : Obligations.CanonicalMemoriesThatReadAlikeAreEqual := by
  intro c m m' hm hm' hread
  exact Memory.eq_of_read_eq c m hm hm' fun a _ ha => hread a ha

end Sys2Proof.Machine
end

