-- ==== Sys2Proof/Proofs/Writers.lean ====
section
/-!
PROOFS. Who may change what: each field of the state survives every instruction but its writers.
-/

namespace Sys2Proof.Machine

variable {i : Instr} {s t : State}

/-! ## Index register, stack and timers -/

theorem ExecEffect.i_eq (h : ExecEffect i s t) (hldI : ∀ a, i ≠ .ldI a) (hadd : ∀ x, i ≠ .addIVx x)
    (hglyph : ∀ x, i ≠ .ldFVx x) : t.i = s.i := by
  cases h with
  | loadsIndex nnn => exact absurd rfl (hldI nnn)
  | addsToIndex x => exact absurd rfl (hadd x)
  | pointsAtGlyph x => exact absurd rfl (hglyph x)
  | _ => simp

theorem ExecEffect.stack_eq (h : ExecEffect i s t) (hcall : ∀ a, i ≠ .call a) : t.stack = s.stack := by
  cases h with
  | calls nnn => exact absurd rfl (hcall nnn)
  | _ => simp

theorem ExecEffect.sp_eq (h : ExecEffect i s t) (hcall : ∀ a, i ≠ .call a) (hret : i ≠ .ret) : t.sp = s.sp := by
  cases h with
  | calls nnn => exact absurd rfl (hcall nnn)
  | returns => exact absurd rfl hret
  | _ => simp

theorem ExecEffect.dt_eq (h : ExecEffect i s t) (hset : ∀ x, i ≠ .ldDTVx x) : t.dt = s.dt := by
  cases h with
  | setsDelay x => exact absurd rfl (hset x)
  | _ => simp

theorem ExecEffect.st_eq (h : ExecEffect i s t) (hset : ∀ x, i ≠ .ldSTVx x) : t.st = s.st := by
  cases h with
  | setsSound x => exact absurd rfl (hset x)
  | _ => simp

/-- Settles O25, field by field. -/
theorem onlyTheirWritersTouchIndexStackTimers : Obligations.OnlyTheirWritersTouchIndexStackTimers := by
  intro i s t h
  have heff := exec_effect h
  exact ⟨heff.i_eq, heff.stack_eq, heff.sp_eq, heff.dt_eq, heff.st_eq⟩

/-! ## Inputs and parameters -/

/-- No shape writes one of these fields. -/
theorem ExecEffect.inputs_eq (h : ExecEffect i s t) :
    t.keys = s.keys ∧ t.op = s.op ∧ t.cfg = s.cfg ∧ t.rnd = s.rnd ∧ t.inputs = s.inputs ∧ t.draws = s.draws := by
  cases h <;> simp

/-- Sampling keeps the keypad or takes the one the host presents (R98, R228). -/
theorem State.sample_keys (s : State) : s.sample.keys = s.keys ∨
    ∃ p rest, s.inputs = p :: rest ∧ s.sample.keys = p.keys ∧ s.sample.inputs = rest := by
  cases h : s.inputs with
  | nil => exact .inl (by rw [State.sample_nil s h])
  | cons p rest => exact .inr ⟨p, rest, rfl, by simp [State.sample_cons s p rest h]⟩

/-- A step that runs leaves the keypad and the host's list as sampling left them. -/
theorem step_keys_inputs (h : step s = .next t) (hrun : s.fault = none) :
    t.keys = s.sample.keys ∧ t.inputs = s.sample.inputs := by
  obtain ⟨hf, -⟩ | ⟨-, -, rfl⟩ | ⟨-, -, u, hu, rfl⟩ := step_cases h
  · exact absurd hrun hf
  · simp
  · obtain ⟨hkeys, -, -, -, hinputs, -⟩ := (exec_effect hu).inputs_eq
    simp [hkeys, hinputs]

theorem step_cfg (h : step s = .next t) : t.cfg = s.cfg := by
  obtain ⟨-, rfl⟩ | ⟨-, -, rfl⟩ | ⟨-, -, u, hu, rfl⟩ := step_cases h
  · rfl
  · simp
  · obtain ⟨-, -, hcfg, -⟩ := (exec_effect hu).inputs_eq
    simp [hcfg]

/-- Settles O26: the handlers write none of the fields, and a step's only change of the keypad is the sampling. -/
theorem noInstructionWritesInputsOrParameters : Obligations.NoInstructionWritesInputsOrParameters := by
  refine ⟨fun i s t h => (exec_effect h).inputs_eq, fun s t h => ⟨step_cfg h, ?_⟩⟩
  cases hf : s.fault with
  | some r =>
    rw [step_halted s r hf] at h
    cases h
    exact .inl rfl
  | none =>
    obtain ⟨hkeys, hinputs⟩ := step_keys_inputs h hf
    rw [hkeys, hinputs]
    exact s.sample_keys

/-! ## V registers and the flag -/

/-- A register not listed as data, nor as the flag of a flag writer, survives (R23, R24). -/
theorem ExecEffect.getV_eq (h : ExecEffect i s t) {r : Reg} (hr : writesReg i r = false)
    (hflag : r = 15 → writesFlag i = false) : t.getV r = s.getV r := by
  cases h with
  | setsReg hx _ =>
    rw [State.getV_setV, if_neg]
    rintro rfl
    simp [hx] at hr
  | setsResultAndFlag hx hf =>
    rw [State.getV_setResultFlag, if_neg, if_neg]
    · rintro rfl
      simp [hx] at hr
    · intro h15
      simpa [hf] using hflag h15
  | loadsRegs x =>
    rw [State.getV_loadRegs, if_neg]
    simpa [writesReg] using hr
  | draws x y n =>
    rw [State.getV_setVF, if_neg]
    · rfl
    · intro h15
      simpa [writesFlag] using hflag h15
  | returns => rfl
  | calls => rfl
  | clears => rfl
  | _ => simp

theorem flagByte_zero_or_one (b : Bool) : flagByte b = 0 ∨ flagByte b = 1 := by
  cases b
  · exact .inl rfl
  · exact .inr rfl

/-- A flag writer that does not fault leaves a flag value in VF (R24). -/
theorem ExecEffect.flag_zero_or_one (h : ExecEffect i s t) (hflag : writesFlag i = true)
    (hok : expectedFault i s = none) : t.getV 15 = 0 ∨ t.getV 15 = 1 := by
  cases h with
  | raises hc => simp [hok] at hc
  | movesPc hf => simp [hf] at hflag
  | setsReg _ hf => simp [hf] at hflag
  | setsResultAndFlag =>
    rw [State.getV_setResultFlag, if_pos rfl]
    exact flagByte_zero_or_one _
  | draws =>
    rw [State.getV_setVF, if_pos rfl]
    exact flagByte_zero_or_one _
  | _ => simp [writesFlag] at hflag

/-- Settles O27, from the two lemmas above. -/
theorem registersAndFlagChangeOnlyAsListed : Obligations.RegistersAndFlagChangeOnlyAsListed := by
  intro i s t h
  have heff := exec_effect h
  exact ⟨fun _ => heff.getV_eq, heff.flag_zero_or_one⟩

end Sys2Proof.Machine
end

