-- ==== Sys2Proof/Proofs/MemoryAccess.lean ====
section
/-!
PROOFS. Access to memory and the framebuffer: the byte order of the fetch, and the only writers of the two.
-/

namespace Sys2Proof.Machine

variable {i : Instr} {s t : State}

/-! ## Byte order -/

/-- A word that is read has the byte at the lower address in its high half (R10, R50). -/
theorem State.toNat_readWord (s : State) (a : Nat) :
    (s.readWord a).toNat = 256 * (s.readByte a).toNat + (s.readByte (a + 1)).toNat :=
  wordOfBytes_toNat (s.readByte a) (s.readByte (a + 1))

/-- The fetch gives a word exactly when both its bytes lie in memory, and then the word at `pc` (R91). -/
theorem State.fetch_eq_some_iff {w : Word} :
    s.fetch = some w ↔ s.pc.toNat ≤ 4094 ∧ s.readWord s.pc.toNat = w := by
  by_cases hpc : s.pc.toNat ≤ 4094
  · simp [State.fetch_some s hpc, hpc]
  · simp [State.fetch_none s (by omega), hpc]

/-- Settles O11: the fetched word is the one read at `pc`. -/
theorem fetchIsBigEndian : Obligations.FetchIsBigEndian := by
  intro s w hfetch
  obtain ⟨-, rfl⟩ := State.fetch_eq_some_iff.1 hfetch
  exact s.toNat_readWord s.pc.toNat

/-! ## Writers of memory and of the framebuffer -/

/-- Of the shapes only the two block stores write memory; a draw and a block load read it (R53). -/
theorem ExecEffect.mem_eq (h : ExecEffect i s t) (hdigits : ∀ x, i ≠ .ldBVx x) (hregs : ∀ x, i ≠ .ldMemVx x) :
    t.mem = s.mem := by
  cases h with
  | storesDigits x _ => exact absurd rfl (hdigits x)
  | storesRegs x _ => exact absurd rfl (hregs x)
  | _ => simp

theorem ExecEffect.fb_eq (h : ExecEffect i s t) (hcls : i ≠ .cls) (hdrw : ∀ x y n, i ≠ .drw x y n) : t.fb = s.fb := by
  cases h with
  | clears => exact absurd rfl hcls
  | draws x y n => exact absurd rfl (hdrw x y n)
  | _ => simp

/-- What an address reads as is the listed memory over the machine's font, and nothing else of the state. -/
theorem SameMemory.of_mem_cfg_eq (hmem : t.mem = s.mem) (hcfg : t.cfg = s.cfg) : SameMemory s t := by
  intro a
  rw [State.readByte, State.readByte, hmem, hcfg]

/-- Settles O24: an instruction that keeps the list of memory keeps every reading of it, as no instruction writes `cfg`. -/
theorem onlyStoresTouchMemoryOnlyDrawsTheScreen : Obligations.OnlyStoresTouchMemoryOnlyDrawsTheScreen := by
  intro i s t h
  have heff := exec_effect h
  obtain ⟨-, -, hcfg, -⟩ := heff.inputs_eq
  refine ⟨fun hdigits hregs => ?_, heff.fb_eq⟩
  have hmem := heff.mem_eq hdigits hregs
  exact ⟨hmem, .of_mem_cfg_eq hmem hcfg⟩

end Sys2Proof.Machine
end

