-- ==== Sys2Proof/Proofs/Fields.lean ====
section
/-!
SUPPORT. The fields of a word: as R72's masks and shifts, as what the masks of R75 keep, and as the parts an encoded word
was built from.
-/

namespace Sys2Proof

/-! ## The extraction formulas of R72 -/

theorem toNat_and_mask (w : Word) (k : Nat) {m : Word} (hm : m.toNat = 2 ^ k - 1) :
    (w &&& m).toNat = w.toNat % 2 ^ k := by
  rw [BitVec.toNat_and, hm, Nat.and_two_pow_sub_one_eq_mod]

theorem nibble_eq_mask (w : Word) (lo : Nat) : (nibble w lo).toNat = ((w >>> lo) &&& 0xF).toNat := by
  rw [nibble_toNat, toNat_and_mask _ 4 rfl, BitVec.toNat_ushiftRight, Nat.shiftRight_eq_div_pow]
  rfl

theorem fieldX_eq_mask (w : Word) : (fieldX w).val = ((w >>> 8) &&& 0xF).toNat := nibble_eq_mask w 8

theorem fieldY_eq_mask (w : Word) : (fieldY w).val = ((w >>> 4) &&& 0xF).toNat := nibble_eq_mask w 4

theorem fieldN_eq_mask (w : Word) : (fieldN w).val = (w &&& 0xF).toNat := nibble_eq_mask w 0

/-- The low nibble as a dispatch key is the operand `n` (R72, R74). -/
theorem lowNibble_eq_mask (w : Word) : (nibble w 0).toNat = (w &&& 0xF).toNat := nibble_eq_mask w 0

theorem fieldKK_eq_mask (w : Word) : (fieldKK w).toNat = (w &&& 0xFF).toNat := by
  rw [fieldKK_toNat, toNat_and_mask w 8 rfl]
  rfl

theorem fieldNNN_eq_mask (w : Word) : (fieldNNN w).toNat = (w &&& 0xFFF).toNat := by
  rw [fieldNNN_toNat, toNat_and_mask w 12 rfl]
  rfl

theorem family_eq_shift (w : Word) : (family w).toNat = (w >>> 12).toNat := by
  rw [family_toNat, BitVec.toNat_ushiftRight, Nat.shiftRight_eq_div_pow]

/-! ## What the masks of R75 keep -/

theorem eq_wordOfNibbles (w : Word) : w = wordOfNibbles (family w).toFin (fieldX w) (fieldY w) (fieldN w) := by
  have hw := w.isLt
  rw [← BitVec.toNat_inj, wordOfNibbles_toNat, BitVec.val_toFin, family_toNat, fieldX_val, fieldY_val, fieldN_val]
  omega

theorem eq_wordOfImmediate (w : Word) : w = wordOfImmediate (family w).toFin (fieldX w) (fieldKK w) := by
  have hw := w.isLt
  rw [← BitVec.toNat_inj, wordOfImmediate_toNat, BitVec.val_toFin, family_toNat, fieldX_val, fieldKK_toNat]
  omega

theorem toNat_and_family (w : Word) : (w &&& 0xF000).toNat = (family w).toNat * 4096 := by
  conv_lhs => rw [eq_wordOfNibbles w, wordOfNibbles_family, wordOfNibbles_toNat]
  simp

theorem toNat_and_key (w : Word) : (w &&& 0xF00F).toNat = (family w).toNat * 4096 + (nibble w 0).toNat := by
  conv_lhs => rw [eq_wordOfNibbles w, wordOfNibbles_key, wordOfNibbles_toNat]
  simp [fieldN]

theorem toNat_and_low (w : Word) : (w &&& 0xF0FF).toNat = (family w).toNat * 4096 + (fieldKK w).toNat := by
  conv_lhs => rw [eq_wordOfImmediate w, wordOfImmediate_low, wordOfImmediate_toNat]
  simp

section
variable {w p : Word}

theorem OpRow.selects_family_iff (hp : p.toNat % 4096 = 0) :
    OpRow.selects ⟨0xF000#16, p⟩ w = true ↔ (family w).toNat = p.toNat / 4096 := by
  change (w &&& 0xF000 == p) = true ↔ _
  rw [beq_iff_eq, ← BitVec.toNat_inj, toNat_and_family]
  omega

theorem OpRow.selects_key_iff (hp : p.toNat % 4096 < 16) : OpRow.selects ⟨0xF00F#16, p⟩ w = true ↔
    (family w).toNat = p.toNat / 4096 ∧ (nibble w 0).toNat = p.toNat % 16 := by
  have hkey := (nibble w 0).isLt
  change (w &&& 0xF00F == p) = true ↔ _
  rw [beq_iff_eq, ← BitVec.toNat_inj, toNat_and_key]
  omega

theorem OpRow.selects_low_iff (hp : p.toNat % 4096 < 256) : OpRow.selects ⟨0xF0FF#16, p⟩ w = true ↔
    (family w).toNat = p.toNat / 4096 ∧ (fieldKK w).toNat = p.toNat % 256 := by
  have hlow := (fieldKK w).isLt
  change (w &&& 0xF0FF == p) = true ↔ _
  rw [beq_iff_eq, ← BitVec.toNat_inj, toNat_and_low]
  omega

end

/-! ## The fields of an encoded word -/

section
variable (f x y k : Fin 16) (nnn : BitVec 12) (kk : Byte)

@[simp] theorem family_wordOfNibbles : (family (wordOfNibbles f x y k)).toNat = f.val := by
  rw [family_toNat, wordOfNibbles_toNat]; omega

@[simp] theorem fieldX_wordOfNibbles : fieldX (wordOfNibbles f x y k) = x := by
  rw [Fin.ext_iff, fieldX_val, wordOfNibbles_toNat]; omega

@[simp] theorem fieldY_wordOfNibbles : fieldY (wordOfNibbles f x y k) = y := by
  rw [Fin.ext_iff, fieldY_val, wordOfNibbles_toNat]; omega

@[simp] theorem fieldN_wordOfNibbles : fieldN (wordOfNibbles f x y k) = k := by
  rw [Fin.ext_iff, fieldN_val, wordOfNibbles_toNat]; omega

@[simp] theorem lowNibble_wordOfNibbles : (nibble (wordOfNibbles f x y k) 0).toNat = k.val := by
  rw [nibble_toNat, wordOfNibbles_toNat]; omega

@[simp] theorem family_wordOfAddress : (family (wordOfAddress f nnn)).toNat = f.val := by
  rw [family_toNat, wordOfAddress_toNat]; omega

@[simp] theorem fieldNNN_wordOfAddress : fieldNNN (wordOfAddress f nnn) = nnn := by
  rw [← BitVec.toNat_inj, fieldNNN_toNat, wordOfAddress_toNat]; omega

@[simp] theorem family_wordOfImmediate : (family (wordOfImmediate f x kk)).toNat = f.val := by
  rw [family_toNat, wordOfImmediate_toNat]; omega

@[simp] theorem fieldX_wordOfImmediate : fieldX (wordOfImmediate f x kk) = x := by
  rw [Fin.ext_iff, fieldX_val, wordOfImmediate_toNat]; omega

@[simp] theorem fieldKK_wordOfImmediate : fieldKK (wordOfImmediate f x kk) = kk := by
  rw [← BitVec.toNat_inj, fieldKK_toNat, wordOfImmediate_toNat]; omega

@[simp] theorem lowNibble_wordOfImmediate : (nibble (wordOfImmediate f x kk) 0).toNat = kk.toNat % 16 := by
  rw [nibble_toNat, wordOfImmediate_toNat]; omega

end

end Sys2Proof
end

