-- ==== Sys2Proof/Proofs/Decoder.lean ====
section
/-!
PROOFS. The decoder: what it can answer, said once as a relation of word and instruction; the row of the opcode table it
selects; the no-op words; decode after encode.
-/

namespace Sys2Proof

variable {w v : Word} {i : Instr} {r : OpRow}

/-! ## What the decoder answers -/

/-- `DecodesTo w i`: the dispatch keys of `w` are those of `i` (R73, R74) and the operands of `i` are the fields of `w` (R72);
a word of R77 gives the no-op that carries it. -/
inductive DecodesTo (w : Word) : Instr → Prop where
  | cls (hf : (family w).toNat = 0x0) (hk : (nibble w 0).toNat = 0x0) : DecodesTo w .cls
  | ret (hf : (family w).toNat = 0x0) (hk : (nibble w 0).toNat = 0xE) : DecodesTo w .ret
  | jp (hf : (family w).toNat = 0x1) : DecodesTo w (.jp (fieldNNN w))
  | call (hf : (family w).toNat = 0x2) : DecodesTo w (.call (fieldNNN w))
  | seImm (hf : (family w).toNat = 0x3) : DecodesTo w (.seImm (fieldX w) (fieldKK w))
  | sneImm (hf : (family w).toNat = 0x4) : DecodesTo w (.sneImm (fieldX w) (fieldKK w))
  | seReg (hf : (family w).toNat = 0x5) : DecodesTo w (.seReg (fieldX w) (fieldY w))
  | ldImm (hf : (family w).toNat = 0x6) : DecodesTo w (.ldImm (fieldX w) (fieldKK w))
  | addImm (hf : (family w).toNat = 0x7) : DecodesTo w (.addImm (fieldX w) (fieldKK w))
  | ldReg (hf : (family w).toNat = 0x8) (hk : (nibble w 0).toNat = 0x0) : DecodesTo w (.ldReg (fieldX w) (fieldY w))
  | orReg (hf : (family w).toNat = 0x8) (hk : (nibble w 0).toNat = 0x1) : DecodesTo w (.orReg (fieldX w) (fieldY w))
  | andReg (hf : (family w).toNat = 0x8) (hk : (nibble w 0).toNat = 0x2) : DecodesTo w (.andReg (fieldX w) (fieldY w))
  | xorReg (hf : (family w).toNat = 0x8) (hk : (nibble w 0).toNat = 0x3) : DecodesTo w (.xorReg (fieldX w) (fieldY w))
  | addReg (hf : (family w).toNat = 0x8) (hk : (nibble w 0).toNat = 0x4) : DecodesTo w (.addReg (fieldX w) (fieldY w))
  | subReg (hf : (family w).toNat = 0x8) (hk : (nibble w 0).toNat = 0x5) : DecodesTo w (.subReg (fieldX w) (fieldY w))
  | shr (hf : (family w).toNat = 0x8) (hk : (nibble w 0).toNat = 0x6) : DecodesTo w (.shr (fieldX w))
  | subnReg (hf : (family w).toNat = 0x8) (hk : (nibble w 0).toNat = 0x7) : DecodesTo w (.subnReg (fieldX w) (fieldY w))
  | shl (hf : (family w).toNat = 0x8) (hk : (nibble w 0).toNat = 0xE) : DecodesTo w (.shl (fieldX w))
  | sneReg (hf : (family w).toNat = 0x9) : DecodesTo w (.sneReg (fieldX w) (fieldY w))
  | ldI (hf : (family w).toNat = 0xA) : DecodesTo w (.ldI (fieldNNN w))
  | jpV0 (hf : (family w).toNat = 0xB) : DecodesTo w (.jpV0 (fieldNNN w))
  | rnd (hf : (family w).toNat = 0xC) : DecodesTo w (.rnd (fieldX w) (fieldKK w))
  | drw (hf : (family w).toNat = 0xD) : DecodesTo w (.drw (fieldX w) (fieldY w) (fieldN w))
  | skp (hf : (family w).toNat = 0xE) (hk : (nibble w 0).toNat = 0xE) : DecodesTo w (.skp (fieldX w))
  | sknp (hf : (family w).toNat = 0xE) (hk : (nibble w 0).toNat = 0x1) : DecodesTo w (.sknp (fieldX w))
  | ldVxDT (hf : (family w).toNat = 0xF) (hk : (fieldKK w).toNat = 0x07) : DecodesTo w (.ldVxDT (fieldX w))
  | ldVxK (hf : (family w).toNat = 0xF) (hk : (fieldKK w).toNat = 0x0A) : DecodesTo w (.ldVxK (fieldX w))
  | ldDTVx (hf : (family w).toNat = 0xF) (hk : (fieldKK w).toNat = 0x15) : DecodesTo w (.ldDTVx (fieldX w))
  | ldSTVx (hf : (family w).toNat = 0xF) (hk : (fieldKK w).toNat = 0x18) : DecodesTo w (.ldSTVx (fieldX w))
  | addIVx (hf : (family w).toNat = 0xF) (hk : (fieldKK w).toNat = 0x1E) : DecodesTo w (.addIVx (fieldX w))
  | ldFVx (hf : (family w).toNat = 0xF) (hk : (fieldKK w).toNat = 0x29) : DecodesTo w (.ldFVx (fieldX w))
  | ldBVx (hf : (family w).toNat = 0xF) (hk : (fieldKK w).toNat = 0x33) : DecodesTo w (.ldBVx (fieldX w))
  | ldMemVx (hf : (family w).toNat = 0xF) (hk : (fieldKK w).toNat = 0x55) : DecodesTo w (.ldMemVx (fieldX w))
  | ldVxMem (hf : (family w).toNat = 0xF) (hk : (fieldKK w).toNat = 0x65) : DecodesTo w (.ldVxMem (fieldX w))
  | nop (hno : isNoOpWord w = true) : DecodesTo w (.nop w)

theorem decodeFamily0_decodesTo (hf : (family w).toNat = 0x0) : DecodesTo w (decodeFamily0 w) := by
  unfold decodeFamily0
  split
  case h_3 => exact .nop (by simp_all [isNoOpWord])
  all_goals constructor <;> assumption

theorem decodeFamily8_decodesTo (hf : (family w).toNat = 0x8) : DecodesTo w (decodeFamily8 w) := by
  unfold decodeFamily8
  split
  case h_10 =>
    have hkey := (nibble w 0).isLt
    refine .nop ?_
    simp only [isNoOpWord, hf, List.contains_iff_mem, List.mem_cons, List.not_mem_nil, imp_false] at *
    omega
  all_goals constructor <;> assumption

theorem decodeFamilyE_decodesTo (hf : (family w).toNat = 0xE) : DecodesTo w (decodeFamilyE w) := by
  unfold decodeFamilyE
  split
  case h_3 => exact .nop (by simp_all [isNoOpWord])
  all_goals constructor <;> assumption

theorem decodeFamilyF_decodesTo (hf : (family w).toNat = 0xF) : DecodesTo w (decodeFamilyF w) := by
  unfold decodeFamilyF
  split
  case h_10 => exact .nop (by simp_all [isNoOpWord])
  all_goals constructor <;> assumption

/-- The inversion of the decoder: family by family, the four with a second-level table by their own lemma. -/
theorem decodeWord_decodesTo (w : Word) : DecodesTo w (decodeWord w) := by
  unfold decodeWord
  split
  case h_1 hf => exact decodeFamily0_decodesTo hf
  case h_9 hf => exact decodeFamily8_decodesTo hf
  case h_15 hf => exact decodeFamilyE_decodesTo hf
  case h_16 =>
    have hfamily := (family w).isLt
    simp only [imp_false] at *
    exact decodeFamilyF_decodesTo (by omega)
  all_goals constructor; assumption

/-- Settles O7: every operand the decoder fills in is a field, and each field is its formula. -/
theorem operandsAreTheFieldsOfTheWord : Obligations.OperandsAreTheFieldsOfTheWord := by
  unfold Obligations.OperandsAreTheFieldsOfTheWord
  intro w
  have hw := decodeWord_decodesTo w
  generalize decodeWord w = i at hw
  cases hw with
  | cls | ret => trivial
  | nop => rfl
  | jp | call | ldI | jpV0 => exact fieldNNN_eq_mask w
  | seImm | sneImm | ldImm | addImm | rnd => exact ⟨fieldX_eq_mask w, fieldKK_eq_mask w⟩
  | drw => exact ⟨fieldX_eq_mask w, fieldY_eq_mask w, fieldN_eq_mask w⟩
  | seReg | ldReg | orReg | andReg | xorReg | addReg | subReg | subnReg | sneReg =>
    exact ⟨fieldX_eq_mask w, fieldY_eq_mask w⟩
  | _ => exact fieldX_eq_mask w

/-! ## The no-op words -/

/-- A word of R77 has the dispatch keys of no other instruction. -/
theorem DecodesTo.eq_nop (h : DecodesTo w i) (hno : isNoOpWord w = true) : i = .nop w := by
  cases h with
  | nop => rfl
  | _ => simp [isNoOpWord, *] at hno

theorem decodeWord_eq_nop_iff : decodeWord w = .nop v ↔ isNoOpWord w = true ∧ w = v := by
  have hw := decodeWord_decodesTo w
  constructor
  · intro h
    rw [h] at hw
    cases hw with
    | nop hno => exact ⟨hno, rfl⟩
  · rintro ⟨hno, rfl⟩
    exact hw.eq_nop hno

/-- The table of R77 in the masks and shifts of R72. -/
theorem isNoOpWord_iff (w : Word) : isNoOpWord w = true ↔
    (w >>> 12 = 0x0 ∧ w &&& 0xF ∉ [0x0, 0xE]) ∨
    (w >>> 12 = 0x8 ∧ w &&& 0xF ∈ [0x8, 0x9, 0xA, 0xB, 0xC, 0xD, 0xF]) ∨
    (w >>> 12 = 0xE ∧ w &&& 0xF ∉ [0x1, 0xE]) ∨
    (w >>> 12 = 0xF ∧ w &&& 0xFF ∉ [0x07, 0x0A, 0x15, 0x18, 0x1E, 0x29, 0x33, 0x55, 0x65]) := by
  simp only [isNoOpWord, family_eq_shift, lowNibble_eq_mask, fieldKK_eq_mask]
  split <;> simp_all [← BitVec.toNat_inj]

/-- Settles O8: the decoder answers the no-op on the words of `isNoOpWord`, which are those of the table. -/
theorem noOpWordsAreExactlyTheListedOnes : Obligations.NoOpWordsAreExactlyTheListedOnes := by
  intro w
  rw [← isNoOpWord_iff]
  simp [decodeWord_eq_nop_iff]

/-! ## The row of the opcode table -/

/-- What the decoder answers stands in a row of R75 that the word meets. -/
theorem DecodesTo.row_selects (h : DecodesTo w i) (hr : i.row = some r) : r ∈ opcodeTable ∧ r.selects w = true := by
  cases h with
  | nop => cases hr
  | _ =>
    cases hr
    simp [opcodeTable, OpRow.selects_family_iff, OpRow.selects_key_iff, OpRow.selects_low_iff, *]

/-- Row by row of R75: a word that meets it has the dispatch keys of its instruction. -/
theorem row_decodeWord_of_selects : ∀ r ∈ opcodeTable, r.selects w = true → (decodeWord w).row = some r := by
  simp only [opcodeTable, List.cons_append, List.nil_append, List.forall_mem_cons]
  and_intros
  all_goals
    simp +contextual [OpRow.selects_family_iff, OpRow.selects_key_iff, OpRow.selects_low_iff, decodeWord, decodeFamily0,
      decodeFamily8, decodeFamilyE, decodeFamilyF, Instr.row]

theorem row_decodeWord_eq_some_iff : (decodeWord w).row = some r ↔ r ∈ opcodeTable ∧ r.selects w = true :=
  ⟨(decodeWord_decodesTo w).row_selects, fun ⟨hr, hsel⟩ => row_decodeWord_of_selects r hr hsel⟩

theorem row_decodeWord_eq_none (h : (decodeWord w).row = none) : decodeWord w = .nop w := by
  have hw := decodeWord_decodesTo w
  generalize decodeWord w = i at h hw
  cases hw with
  | nop => rfl
  | _ => cases h

theorem wellFormed_decodeWord (w : Word) : WellFormed (decodeWord w) := by
  have hw := decodeWord_decodesTo w
  generalize decodeWord w = i at hw
  cases hw with
  | nop hno => exact hno
  | _ => rfl

/-- Settles O6: to meet a row of the table is to decode to an instruction of that row, and an instruction has one row or
none. -/
theorem decodeSelectsTheOneTableRow : Obligations.DecodeSelectsTheOneTableRow := by
  intro w
  have hmeets : ∀ r ∈ opcodeTable, r.selects w = true ↔ (decodeWord w).row = some r := fun r hr => by
    simp [row_decodeWord_eq_some_iff, hr]
  refine ⟨wellFormed_decodeWord w, ?_⟩
  split
  next r hrow =>
    refine ⟨(row_decodeWord_eq_some_iff.1 hrow).1, fun r' hr' => ?_⟩
    rw [hmeets r' hr', hrow, Option.some_inj, eq_comm]
  next hrow =>
    refine ⟨row_decodeWord_eq_none hrow, fun r' hr' => ?_⟩
    rw [Bool.eq_false_iff, ne_eq, hmeets r' hr', hrow]
    nofun

/-! ## Decode after encode -/

/-- An encoded word has the dispatch keys and the operands it was built from. -/
theorem decodeWord_encode (hi : WellFormed i) : decodeWord (encode i) = i := by
  cases i with
  | nop w => exact decodeWord_eq_nop_iff.2 ⟨hi, rfl⟩
  | cls | ret => rfl
  | jp _ | call _ | ldI _ | jpV0 _ => simp [encode, decodeWord]
  | seImm _ _ | sneImm _ _ | ldImm _ _ | addImm _ _ | rnd _ _ => simp [encode, decodeWord]
  | seReg _ _ | sneReg _ _ | drw _ _ _ => simp [encode, decodeWord]
  | ldReg _ _ | orReg _ _ | andReg _ _ | xorReg _ _ | addReg _ _ | subReg _ _ | shr _ | subnReg _ _ | shl _ =>
    simp [encode, decodeWord, decodeFamily8]
  | skp _ | sknp _ => simp [encode, decodeWord, decodeFamilyE]
  | ldVxDT _ | ldVxK _ | ldDTVx _ | ldSTVx _ | addIVx _ | ldFVx _ | ldBVx _ | ldMemVx _ | ldVxMem _ =>
    simp [encode, decodeWord, decodeFamilyF]

/-- The two bytes of a word, put together again, are the word (R50). -/
theorem decode_bytesOfWord (w : Word) : decode (bytesOfWord w) = .ok (decodeWord w, []) := by
  have hword : wordOfBytes (w.extractLsb' 8 8) (w.extractLsb' 0 8) = w := by
    have hw := w.isLt
    rw [← BitVec.toNat_inj, wordOfBytes_toNat, BitVec.extractLsb'_toNat, BitVec.extractLsb'_toNat]
    omega
  rw [bytesOfWord, decode, hword]

/-- Settles O5: the word decodes to the instruction, and its two bytes give the word again. -/
theorem decodeOfEncodeIsTheInstruction : Obligations.DecodeOfEncodeIsTheInstruction := by
  intro i hi
  have hword := decodeWord_encode hi
  exact ⟨hword, by rw [decode_bytesOfWord, hword]⟩

/-- Settles O10: thirty-five literal words, each decoded by evaluation. -/
theorem wordsDecodeAsTheSpecWritesThem : Obligations.WordsDecodeAsTheSpecWritesThem := by
  unfold Obligations.WordsDecodeAsTheSpecWritesThem
  decide

end Sys2Proof
end

