-- ==== Sys2Proof/Proofs/Totality.lean ====
section
/-!
PROOFS. The machine always answers: no instruction and no step ends in a fault outcome or a refusal.
-/

namespace Sys2Proof.Machine

/-- Every Cycle answers a next state: a halted one, one that cannot fetch, and one that runs a handler. -/
theorem step_answers (s : State) : ∃ t, step s = .next t := by
  cases hf : s.fault with
  | some r => exact ⟨s, step_halted s r hf⟩
  | none =>
    by_cases hpc : s.pc.toNat ≤ 4094
    · obtain ⟨u, hu, -⟩ := exec_answers s.nextInstr (s.sample.advance (s.readWord s.pc.toNat))
      exact ⟨endCycle s.op u, by rw [step_executes s hf hpc, hu]⟩
    · exact ⟨s.sample.raiseFetch, step_fetchBounds s hf (by omega)⟩

/-- Settles O13: every handler answers by one of its shapes, and so every step does. -/
theorem everyStepAnswersANextState : Obligations.EveryStepAnswersANextState := by
  refine ⟨fun i s => ?_, step_answers⟩
  obtain ⟨t, ht, -⟩ := exec_answers i s
  exact ⟨t, ht⟩

end Sys2Proof.Machine
end

