-- ==== Sys2Proof/Proofs/Completion.lean ====
section
/-!
PROOFS. When a handler raises (the table of R218), and what the handlers with a condition answer in each case.
-/

namespace Sys2Proof.Machine

variable {i : Instr} {s t : State} {x y : Reg}

/-- A handler raises wherever the table of R218 names a cause. -/
theorem exec_raises {c : FaultCause} (hc : expectedFault i s = some c) : exec i s = .next (raise s c) := by
  cases i with
  | ret =>
    obtain ⟨hsp, ⟨⟩⟩ := Option.ite_none_right_eq_some.1 hc
    exact execRet_empty s hsp
  | call nnn =>
    obtain ⟨hsp, ⟨⟩⟩ := Option.ite_none_right_eq_some.1 hc
    exact execCall_full nnn s hsp
  | drw x y n =>
    obtain ⟨⟨hn, hi⟩, ⟨⟩⟩ := Option.ite_none_right_eq_some.1 hc
    exact execDrw_outside x y n s hn hi
  | ldBVx x =>
    obtain ⟨hi, ⟨⟩⟩ := Option.ite_none_right_eq_some.1 hc
    exact execLdBVx_outside x s (by omega)
  | ldMemVx x =>
    obtain ⟨hi, ⟨⟩⟩ := Option.ite_none_right_eq_some.1 hc
    exact execLdMemVx_outside x s hi
  | ldVxMem x =>
    obtain ⟨hi, ⟨⟩⟩ := Option.ite_none_right_eq_some.1 hc
    exact execLdVxMem_outside x s hi
  | skp x =>
    obtain ⟨hx, ⟨⟩⟩ := Option.ite_none_right_eq_some.1 hc
    exact congrArg _ (keySkip_outside true x s hx)
  | sknp x =>
    obtain ⟨hx, ⟨⟩⟩ := Option.ite_none_right_eq_some.1 hc
    exact congrArg _ (keySkip_outside false x s hx)
  | _ => cases hc

/-- Where the table names no cause, the latch stays. -/
theorem ExecEffect.fault_eq (h : ExecEffect i s t) (hok : expectedFault i s = none) : t.fault = s.fault := by
  cases h with
  | raises hc => simp [hok] at hc
  | _ => simp

theorem execRet_completes (hok : expectedFault .ret s = none) :
    execRet s = .next { s with sp := ⟨s.sp.val - 1, by omega⟩, pc := s.stack[s.sp.val - 1] } :=
  execRet_pops s (by simpa [expectedFault] using hok)

theorem sp_lt_of_call_completes {nnn : BitVec 12} (hok : expectedFault (.call nnn) s = none) : s.sp.val < 16 := by
  have hsp : s.sp.val ≠ 16 := by simpa [expectedFault] using hok
  omega

theorem execDrw_completes {n : Fin 16} (hok : expectedFault (.drw x y n) s = none) :
    execDrw x y n s = .next
      (State.setVF { s with fb := (drawSprite s x y n.val).fb } (flagByte (drawSprite s x y n.val).collision)) := by
  have hin : 1 ≤ n.val → s.i.toNat + (n.val - 1) ≤ 4095 := by simpa [expectedFault] using hok
  exact execDrw_inside x y n s (by omega)

theorem execLdBVx_completes (hok : expectedFault (.ldBVx x) s = none) :
    execLdBVx x s = .next (s.writeBytes s.i.toNat (decimalDigits (s.getV x))) := by
  have hin : s.i.toNat + 2 ≤ 4095 := by simpa [expectedFault] using hok
  exact execLdBVx_inside x s (by omega)

theorem execLdMemVx_completes (hok : expectedFault (.ldMemVx x) s = none) :
    execLdMemVx x s = .next (s.writeBytes s.i.toNat (s.regBlock x)) :=
  execLdMemVx_inside x s (by simpa [expectedFault] using hok)

theorem execLdVxMem_completes (hok : expectedFault (.ldVxMem x) s = none) :
    execLdVxMem x s = .next (s.loadRegs x) :=
  execLdVxMem_inside x s (by simpa [expectedFault] using hok)

/-- Both key skips, `want` telling them apart, on a register that names a key (R190, R191). -/
theorem keySkip_completes (want : Bool) (hok : expectedFault (.skp x) s = none) :
    keySkip want x s = s.skipIf (s.keys.getLsbD (s.getV x).toNat == want) :=
  keySkip_inside want x s (by simpa [expectedFault] using hok)

theorem execLdVxK_stalls (x : Reg) (hkey : s.leastKey = none) : execLdVxK x s = .next (s.jump (s.pc - 2)) := by
  rw [execLdVxK, hkey]

theorem execLdVxK_takes (x : Reg) {k : Fin 16} (hkey : s.leastKey = some k) :
    execLdVxK x s = .next (s.setV x (BitVec.ofNat 8 k.val)) := by
  rw [execLdVxK, hkey]

end Sys2Proof.Machine
end

