-- ==== Sys2Proof/Proofs/ProgramCounter.lean ====
section
/-!
PROOFS. Where each instruction leaves the program counter (R26).
-/

namespace Sys2Proof.Machine

variable {i : Instr} {s t : State} {x : Reg}

/-- The operand nnn as the spec writes it, a number (R72). -/
theorem addressOperand_eq_ofNat (nnn : BitVec 12) : addressOperand nnn = BitVec.ofNat 16 nnn.toNat := by
  simp [addressOperand]

theorem wide_eq_ofNat (b : Byte) : wide b = BitVec.ofNat 16 b.toNat := by
  simp [wide]

/-- A handler sees `pc` = A + 2, so a skip leaves A + 4 or A + 2 (R110). -/
theorem State.skipIf_pc_eq_skipTarget (s : State) {c : Bool} {p : Prop} [Decidable p] (hcp : c = true ↔ p) :
    (s.skipIf c).pc = skipTarget (s.pc - 2) p := by
  rw [State.skipIf_pc, skipTarget]
  simp only [hcp]
  split <;> bv_omega

theorem keySkip_pc {want : Bool} (hok : expectedFault (.skp x) s = none) :
    (keySkip want x s).pc = skipTarget (s.pc - 2) (s.keys.getLsbD (s.getV x).toNat = want) := by
  rw [keySkip_completes want hok]
  exact s.skipIf_pc_eq_skipTarget beq_iff_eq

theorem State.leastKey_eq_none_iff_keys (s : State) : s.leastKey = none ↔ s.keys = 0 := by
  rw [State.leastKey_none_iff]
  constructor
  · intro h
    apply BitVec.eq_of_getLsbD_eq
    intro k hk
    exact (h ⟨k, hk⟩).trans BitVec.getLsbD_zero.symm
  · intro h k
    simp [State.keyPressed, h]

theorem execLdVxK_pc (h : execLdVxK x s = .next t) : t.pc = if s.keys = 0 then s.pc - 2 else s.pc := by
  cases hkey : s.leastKey with
  | none =>
    cases (execLdVxK_stalls x hkey).symm.trans h
    exact (if_pos (s.leastKey_eq_none_iff_keys.1 hkey)).symm
  | some k =>
    cases (execLdVxK_takes x hkey).symm.trans h
    have hkeys : s.keys ≠ 0 := fun h0 => by simp [s.leastKey_eq_none_iff_keys.2 h0] at hkey
    exact (if_neg hkeys).symm

/-- An instruction that does not raise leaves `pc` as R26 tables it, A being two below the `pc` its handler sees. -/
theorem exec_pc (h : exec i s = .next t) (hok : expectedFault i s = none) : t.pc = pcAfter i (s.pc - 2) s := by
  have hA : s.pc = s.pc - 2 + 2 := (BitVec.sub_add_cancel ..).symm
  cases i with
  | ret =>
    cases (execRet_completes hok).symm.trans h
    rfl
  | call nnn =>
    cases (execCall_pushes nnn s (sp_lt_of_call_completes hok)).symm.trans h
    exact addressOperand_eq_ofNat nnn
  | jp nnn =>
    cases h
    exact addressOperand_eq_ofNat nnn
  | jpV0 nnn =>
    cases h
    simp [pcAfter, addressOperand_eq_ofNat, wide_eq_ofNat, BitVec.ofNat_add]
  | seImm _ _ | seReg _ _ =>
    cases h
    exact s.skipIf_pc_eq_skipTarget beq_iff_eq
  | sneImm _ _ | sneReg _ _ =>
    cases h
    exact s.skipIf_pc_eq_skipTarget bne_iff_ne
  | skp _ | sknp _ =>
    cases h
    exact keySkip_pc hok
  | ldVxK x => rw [execLdVxK_pc h, pcAfter, ← hA]
  | drw x y n =>
    cases (execDrw_completes hok).symm.trans h
    exact hA
  | ldBVx x =>
    cases (execLdBVx_completes hok).symm.trans h
    rw [State.writeBytes_pc]
    exact hA
  | ldMemVx x =>
    cases (execLdMemVx_completes hok).symm.trans h
    rw [State.writeBytes_pc]
    exact hA
  | ldVxMem x =>
    cases (execLdVxMem_completes hok).symm.trans h
    exact hA
  | _ =>
    cases h
    exact hA

/-- The table reads no field that the fetch writes. -/
theorem pcAfter_advance (i : Instr) (a w : Word) (s : State) : pcAfter i a (s.advance w) = pcAfter i a s := rfl

/-- Settles O19: a handler that raises puts `pc` back to A, any other leaves it as tabled. -/
theorem pcAfterTheCycleIsAsTabled : Obligations.PcAfterTheCycleIsAsTabled := by
  intro s t hrun hpc h
  obtain ⟨hf, -⟩ | ⟨-, hout, -⟩ | ⟨-, -, u, hu, rfl⟩ := step_cases h
  · exact absurd hrun hf
  · omega
  · have hA : (s.sample.advance (s.readWord s.pc.toNat)).pc - 2 = s.pc := by simp
    cases hc : expectedFault s.nextInstr (s.sample.advance (s.readWord s.pc.toNat)) with
    | some c =>
      cases (exec_raises hc).symm.trans hu
      simp
    | none =>
      have hfault : (endCycle s.op u).fault = none := by
        simpa [hrun] using (exec_effect hu).fault_eq hc
      refine ⟨fun _ => ?_, fun hne => absurd hfault hne⟩
      rw [endCycle_pc, exec_pc hu hc, hA, pcAfter_advance]

end Sys2Proof.Machine
end

