-- ==== Sys2Proof/Proofs/Inputs.lean ====
section
/-!
PROOFS. What the inputs of a Cycle reach (R98): the random byte Cxkk, the keypad Ex9E, ExA1 and Fx0A, and no other
instruction.
-/

namespace Sys2Proof.Machine

variable {i : Instr} {s t : State} {keys keys' : BitVec 16} {rnd rnd' : Byte}

/-- `s` with these inputs presented to the Cycle under way (R98). -/
def State.present (s : State) (keys : BitVec 16) (rnd : Byte) : State := { s with keys := keys, rnd := rnd }

/-- What a Cycle of `tick` samples. -/
theorem State.sample_tick (s : State) (keys : BitVec 16) (rnd : Byte) :
    State.sample { s with inputs := ⟨keys, rnd⟩ :: s.inputs } = s.present keys rnd := rfl

/-! ## Operations that do not look at the inputs -/

theorem State.skipIf_present (s : State) (c : Bool) (keys : BitVec 16) (rnd : Byte) :
    (s.present keys rnd).skipIf c = (s.skipIf c).present keys rnd := by
  cases c <;> rfl

theorem State.readBytes_present (s : State) (keys : BitVec 16) (rnd : Byte) (n : Nat) : ∀ a : Nat,
    (s.present keys rnd).readBytes a n = s.readBytes a n := by
  induction n with
  | zero => intro a; rfl
  | succ n ih => intro a; exact congrArg _ (ih (a + 1))

theorem State.writeBytes_present (keys : BitVec 16) (rnd : Byte) (bs : List Byte) : ∀ (s : State) (a : Nat),
    (s.present keys rnd).writeBytes a bs = (s.writeBytes a bs).present keys rnd := by
  induction bs with
  | nil => intro s a; rfl
  | cons b bs ih => intro s a; exact ih (s.writeByte a b) (a + 1)

theorem drawSprite_present (s : State) (keys : BitVec 16) (rnd : Byte) (x y : Reg) (n : Nat) :
    drawSprite (s.present keys rnd) x y n = drawSprite s x y n :=
  congrArg (drawRows _ _ _ 0 · _) (s.readBytes_present keys rnd n s.i.toNat)

theorem endCycle_present (op0 : Word) (s : State) (keys : BitVec 16) (rnd : Byte) :
    endCycle op0 (s.present keys rnd) = (endCycle op0 s).present keys rnd := by
  cases hf : s.fault with
  | some r =>
    rw [endCycle_of_some op0 s r hf]
    exact endCycle_of_some op0 (s.present keys rnd) r hf
  | none =>
    rw [endCycle_of_none op0 s hf]
    exact endCycle_of_none op0 (s.present keys rnd) hf

/-! ## Handlers -/

/-- No condition of R218 reads an input. -/
theorem expectedFault_present (i : Instr) (s : State) (keys : BitVec 16) (rnd : Byte) :
    expectedFault i (s.present keys rnd) = expectedFault i s := rfl

theorem keySkip_present {want : Bool} {x : Reg} (hok : expectedFault (.skp x) s = none) :
    keySkip want x (s.present s.keys rnd) = (keySkip want x s).present s.keys rnd := by
  rw [keySkip_completes want hok, ← State.skipIf_present]
  exact keySkip_completes want hok

theorem execLdVxK_present {x : Reg} (h : execLdVxK x s = .next t) :
    execLdVxK x (s.present s.keys rnd) = .next (t.present s.keys rnd) := by
  cases hkey : s.leastKey with
  | none =>
    cases (execLdVxK_stalls x hkey).symm.trans h
    exact execLdVxK_stalls x hkey
  | some k =>
    cases (execLdVxK_takes x hkey).symm.trans h
    exact execLdVxK_takes x hkey

/-- A handler that is presented other inputs answers the same but for the inputs, when an input its instruction reads is
the same. -/
theorem exec_present (h : exec i s = .next t) (hrnd : (∃ x kk, i = .rnd x kk) → rnd = s.rnd)
    (hkeys : (∃ x, i = .skp x ∨ i = .sknp x ∨ i = .ldVxK x) → keys = s.keys) :
    exec i (s.present keys rnd) = .next (t.present keys rnd) := by
  cases hc : expectedFault i s with
  | some c =>
    cases (exec_raises hc).symm.trans h
    exact exec_raises ((expectedFault_present i s keys rnd).trans hc)
  | none =>
    cases i with
    | rnd x kk =>
      obtain rfl := hrnd ⟨x, kk, rfl⟩
      cases h
      rfl
    | skp x =>
      obtain rfl := hkeys ⟨x, .inl rfl⟩
      cases h
      exact congrArg _ (keySkip_present hc)
    | sknp x =>
      obtain rfl := hkeys ⟨x, .inr (.inl rfl)⟩
      cases h
      exact congrArg _ (keySkip_present hc)
    | ldVxK x =>
      obtain rfl := hkeys ⟨x, .inr (.inr rfl)⟩
      exact execLdVxK_present h
    | seImm _ _ | sneImm _ _ | seReg _ _ | sneReg _ _ =>
      cases h
      exact congrArg _ (s.skipIf_present ..)
    | ret =>
      cases (execRet_completes hc).symm.trans h
      exact execRet_completes (s := s.present keys rnd) hc
    | call nnn =>
      have hsp : s.sp.val < 16 := sp_lt_of_call_completes hc
      cases (execCall_pushes nnn s hsp).symm.trans h
      exact execCall_pushes nnn (s.present keys rnd) hsp
    | drw x y n =>
      cases (execDrw_completes hc).symm.trans h
      rw [← drawSprite_present s keys rnd]
      exact execDrw_completes (s := s.present keys rnd) hc
    | ldBVx x =>
      cases (execLdBVx_completes hc).symm.trans h
      rw [← State.writeBytes_present]
      exact execLdBVx_completes (s := s.present keys rnd) hc
    | ldMemVx x =>
      cases (execLdMemVx_completes hc).symm.trans h
      rw [← State.writeBytes_present]
      exact execLdMemVx_completes (s := s.present keys rnd) hc
    | ldVxMem x =>
      cases (execLdVxMem_completes hc).symm.trans h
      exact execLdVxMem_completes (s := s.present keys rnd) hc
    | _ =>
      cases h
      rfl

/-! ## The Cycle -/

theorem step_completes (hrun : s.fault = none) (hpc : s.pc.toNat ≤ 4094)
    (hexec : exec s.nextInstr (s.sample.advance (s.readWord s.pc.toNat)) = .next t) :
    step s = .next (endCycle s.op t) := by
  rw [step_executes s hrun hpc, hexec]

/-- With other inputs `tick` ends the same but for the inputs, when an input the instruction at `pc` reads is the same. -/
theorem tick_present (hrun : s.fault = none) (h : tick s keys rnd = .next t)
    (hrnd : (∃ x kk, s.nextInstr = .rnd x kk) → rnd' = rnd)
    (hkeys : (∃ x, s.nextInstr = .skp x ∨ s.nextInstr = .sknp x ∨ s.nextInstr = .ldVxK x) → keys' = keys) :
    tick s keys' rnd' = .next (t.present keys' rnd') := by
  obtain ⟨hf, -⟩ | ⟨-, hpc, rfl⟩ | ⟨-, hpc, u, hu, rfl⟩ := step_cases h
  · exact absurd hrun hf
  · exact step_fetchBounds { s with inputs := ⟨keys', rnd'⟩ :: s.inputs } hrun hpc
  · rw [← endCycle_present]
    refine step_completes (s := { s with inputs := ⟨keys', rnd'⟩ :: s.inputs }) hrun hpc ?_
    rw [State.sample_tick]
    exact exec_present hu hrnd hkeys

/-- A Cycle of `tick` ends with the inputs it was given. -/
theorem present_of_tick (hrun : s.fault = none) (h : tick s keys rnd = .next t) : t.present keys rnd = t :=
  Host.Outcome.next.inj ((tick_present hrun h (fun _ => rfl) (fun _ => rfl)).symm.trans h)

/-- Settles O29: the two cases in which one input differs and the other is the same. -/
theorem inputsReachOnlyTheirReaders : Obligations.InputsReachOnlyTheirReaders := by
  intro s t keys keys' rnd rnd' hrun h
  rw [← present_of_tick hrun h]
  constructor
  · intro hrnd
    exact tick_present (t := t) hrun h (fun ⟨x, kk, hi⟩ => absurd hi (hrnd x kk)) (fun _ => rfl)
  · intro hskp hsknp hwait
    have hno : ¬ ∃ x, s.nextInstr = .skp x ∨ s.nextInstr = .sknp x ∨ s.nextInstr = .ldVxK x := by
      rintro ⟨x, hi | hi | hi⟩
      · exact hskp x hi
      · exact hsknp x hi
      · exact hwait x hi
    exact tick_present (t := t) hrun h (fun _ => rfl) (fun hi => absurd hi hno)

end Sys2Proof.Machine
end

