-- ==== Sys2Proof/Proofs/ControlFlow.lean ====
section
/-!
PROOFS. Jumps and skips: each changes the program counter and nothing else (R110, R112, R114 to R118).
-/

namespace Sys2Proof.Machine

variable {i : Instr} {s : State}

theorem onlyPc_jump (s : State) (w : Word) : OnlyPc s (s.jump w) := ⟨fun _ _ => rfl, fun _ => rfl, rfl⟩

theorem onlyPc_skipIf (s : State) (c : Bool) : OnlyPc s (s.skipIf c) := by
  rw [State.skipIf_eq_jump]
  exact onlyPc_jump s _

/-- A handler that skips under the condition `p`. -/
theorem exec_skips {c : Bool} {p : Prop} [Decidable p] (h : exec i s = .next (s.skipIf c)) (hcp : c = true ↔ p) :
    ∃ t, exec i s = .next t ∧ t.pc = (if p then s.pc + 2 else s.pc) ∧ OnlyPc s t := by
  have hpc : (s.skipIf c).pc = if p then s.pc + 2 else s.pc := by simp only [State.skipIf_pc, hcp]
  exact ⟨_, h, hpc, onlyPc_skipIf s c⟩

theorem toNat_addressOperand (nnn : BitVec 12) : (addressOperand nnn).toNat = nnn.toNat :=
  BitVec.toNat_setWidth_of_le (by decide)

theorem toNat_wide (b : Byte) : (wide b).toNat = b.toNat :=
  BitVec.toNat_setWidth_of_le (by decide)

/-- The target of Bnnn is at most 0xFFF + 0xFF, so the sum does not wrap (R118). -/
theorem toNat_addressOperand_add_wide (nnn : BitVec 12) (b : Byte) :
    (addressOperand nnn + wide b).toNat = nnn.toNat + b.toNat := by
  have hsum : (addressOperand nnn).toNat + (wide b).toNat < 2 ^ 16 := by
    rw [toNat_addressOperand, toNat_wide]
    omega
  rw [BitVec.toNat_add_of_lt hsum, toNat_addressOperand, toNat_wide]

/-- Settles O48: both jumps write their target to `pc`, and neither target wraps. -/
theorem jumpsSetThePc : Obligations.JumpsSetThePc := by
  intro s nnn
  exact ⟨⟨_, rfl, toNat_addressOperand nnn, onlyPc_jump s _⟩,
    ⟨_, rfl, toNat_addressOperand_add_wide nnn (s.getV 0), onlyPc_jump s _⟩⟩

/-- Settles O49: each skip tests its condition by a Boolean comparison. -/
theorem skipsAdvanceByTwoOnTheirCondition : Obligations.SkipsAdvanceByTwoOnTheirCondition := by
  intro s x y kk
  exact ⟨exec_skips rfl beq_iff_eq, exec_skips rfl bne_iff_ne, exec_skips rfl beq_iff_eq, exec_skips rfl bne_iff_ne⟩

end Sys2Proof.Machine
end

