-- ==== Sys2Proof/Proofs/SelfJump.lean ====
section
/-!
PROOFS. The jump to itself, the idiom that ends a program (R112, R250): a run on it moves the timers and, besides them,
only the opcode latch and the inputs.
-/

namespace Sys2Proof.Machine

variable {s t u : State} {j k : Nat}

/-! ## The timers run down -/

/-- One tick lowers a timer by 1, with floor 0 (R95). -/
theorem toNat_timerTick (b : Byte) : (timerTick b).toNat = b.toNat - 1 := by
  unfold timerTick
  split
  next hb => simp [hb]
  next hb => bv_omega

/-- `t` is `s` with both timers `k` lower, floor 0, but for the opcode latch and the inputs. -/
structure TimersRunDown (k : Nat) (s t : State) : Prop where
  dt_eq : t.dt.toNat = s.dt.toNat - k
  st_eq : t.st.toNat = s.st.toNat - k
  frame : t =
    { s with op := t.op, dt := t.dt, st := t.st, keys := t.keys, rnd := t.rnd, inputs := t.inputs, draws := t.draws }

theorem TimersRunDown.refl (s : State) : TimersRunDown 0 s s := ⟨rfl, rfl, rfl⟩

theorem TimersRunDown.trans (hst : TimersRunDown j s t) (htu : TimersRunDown k t u) : TimersRunDown (j + k) s u where
  dt_eq := by rw [htu.dt_eq, hst.dt_eq, Nat.sub_sub]
  st_eq := by rw [htu.st_eq, hst.st_eq, Nat.sub_sub]
  frame := by rw [htu.frame, hst.frame]

/-- What makes a state stand on a jump to itself is left alone. -/
theorem TimersRunDown.atSelfJump (h : TimersRunDown k s t) (hs : s.AtSelfJump) : t.AtSelfJump := by
  rw [h.frame]
  exact hs

/-- A timer is a byte, so 255 ticks run it down. -/
theorem TimersRunDown.atEndOfRun (h : TimersRunDown k s t) (hs : s.AtSelfJump) (hk : 255 ≤ k) : t.AtEndOfRun := by
  have hdt := h.dt_eq
  have hst := h.st_eq
  exact ⟨h.atSelfJump hs, by bv_omega, by bv_omega⟩

/-! ## One Cycle on a jump to itself -/

/-- The word of a jump to an address that fits its operand. -/
theorem encode_jp_setWidth {a : Word} (ha : a.toNat < 4096) : encode (.jp (a.setWidth 12)) = 0x1000 ||| a := by
  have hor : (0x1000 ||| a).toNat = 4096 + a.toNat := by
    rw [BitVec.toNat_or]
    exact (Nat.two_pow_add_eq_or_of_lt (i := 12) ha 1).symm
  rw [← BitVec.toNat_inj, hor, encode, wordOfAddress_toNat, BitVec.toNat_setWidth, Nat.mod_eq_of_lt ha]
  rfl

theorem addressOperand_setWidth {a : Word} (ha : a.toNat < 4096) : addressOperand (a.setWidth 12) = a := by
  rw [← BitVec.toNat_inj, toNat_addressOperand, BitVec.toNat_setWidth, Nat.mod_eq_of_lt ha]

theorem State.AtSelfJump.nextInstr_eq (h : s.AtSelfJump) : s.nextInstr = .jp (s.pc.setWidth 12) := by
  obtain ⟨-, hpc, hword⟩ := h
  rw [State.nextInstr, hword, ← encode_jp_setWidth (by omega)]
  exact decodeWord_encode rfl

/-- Sampling moves the inputs only (R98). -/
theorem State.sample_eq (s : State) : s.sample =
    { s with keys := s.sample.keys, rnd := s.sample.rnd, inputs := s.sample.inputs, draws := s.sample.draws } := by
  unfold State.sample
  split <;> rfl

/-- The jump puts `pc` back to where the fetch found it. -/
theorem State.AtSelfJump.step_eq (h : s.AtSelfJump) :
    step s = .next ((s.sample.advance (s.readWord s.pc.toNat)).jump s.pc).timerStep := by
  have hinstr := h.nextInstr_eq
  obtain ⟨hrun, hpc, -⟩ := h
  rw [← endCycle_of_none s.op _ (by simpa using hrun)]
  refine step_completes hrun hpc ?_
  rw [hinstr, exec, execJp, addressOperand_setWidth (by omega)]

theorem State.AtSelfJump.step_runsTimersDown (h : s.AtSelfJump) : ∃ t, step s = .next t ∧ TimersRunDown 1 s t := by
  refine ⟨_, h.step_eq, ?dt, ?st, ?frame⟩
  case dt => simp [toNat_timerTick]
  case st => simp [toNat_timerTick]
  case frame =>
    rw [State.sample_eq]
    rfl

/-! ## Runs -/

theorem run_succ_of_step {M : Host.Core} {s t : M.State} (h : M.step s = .next t) : M.run (k + 1) s = M.run k t := by
  rw [Host.Core.run, h]

theorem State.AtSelfJump.run_runsTimersDown (h : s.AtSelfJump) (k : Nat) :
    ∃ t : State, Sys2Proof.core.run k s = .next t ∧ TimersRunDown k s t := by
  induction k generalizing s with
  | zero => exact ⟨s, rfl, .refl s⟩
  | succ k ih =>
    obtain ⟨t, hstep, hst⟩ := h.step_runsTimersDown
    obtain ⟨u, hrun, htu⟩ := ih (hst.atSelfJump h)
    exact ⟨u, (run_succ_of_step (M := Sys2Proof.core) hstep).trans hrun, Nat.add_comm 1 k ▸ hst.trans htu⟩

/-- Settles O57, by induction on the length of the run. -/
theorem selfJumpOnlyRunsTheTimersDown : Obligations.SelfJumpOnlyRunsTheTimersDown := by
  intro s k hs
  obtain ⟨t, hrun, hdown⟩ := hs.run_runsTimersDown k
  exact ⟨t, hrun, hdown.atSelfJump hs, hdown.dt_eq, hdown.st_eq, hdown.atEndOfRun hs, hdown.frame⟩

end Sys2Proof.Machine
end

