-- ==== Sys2Proof/Proofs/LoadArithmetic.lean ====
section
/-!
PROOFS. The instructions that write one V register and no flag (R130 to R132): the value written, and the frame of the write.
-/

namespace Sys2Proof.Machine

variable {i : Instr} {s : State} {x : Reg} {b : Byte}

theorem State.getV_setV_same (s : State) (x : Reg) (b : Byte) : (s.setV x b).getV x = b := by
  rw [State.getV_setV, if_pos rfl]

/-- A write to one register is no write to another, VF among them. -/
theorem State.getV_setV_of_ne {q : Reg} (s : State) (b : Byte) (hq : q ≠ x) : (s.setV x b).getV q = s.getV q := by
  rw [State.getV_setV, if_neg hq]

theorem onlyRegs_setV (s : State) (x : Reg) (b : Byte) : OnlyRegs [x] s (s.setV x b) :=
  ⟨fun _ hq => s.getV_setV_of_ne b (List.ne_of_not_mem_cons hq), fun _ => rfl, rfl⟩

/-- A handler that writes `b` to the register `x`. -/
theorem exec_setsV (h : exec i s = .next (s.setV x b)) :
    ∃ t, exec i s = .next t ∧ t.getV x = b ∧ OnlyRegs [x] s t :=
  ⟨_, h, s.getV_setV_same x b, onlyRegs_setV s x b⟩

/-- Settles O30: both handlers are one register write, 6xkk of its operand and 8xy0 of the source register, which may be VF. -/
theorem loadImmediateAndCopySetTheRegister : Obligations.LoadImmediateAndCopySetTheRegister := by
  intro s x y kk
  exact ⟨exec_setsV rfl, exec_setsV rfl⟩

/-- Settles O31: the one register write is of the sum of two bytes, which wraps at 256. -/
theorem addImmediateWrapsWithoutFlag : Obligations.AddImmediateWrapsWithoutFlag := by
  intro s x kk
  obtain ⟨t, hexec, hsum, honly⟩ : ∃ t, exec (.addImm x kk) s = .next t ∧ t.getV x = s.getV x + kk ∧ OnlyRegs [x] s t :=
    exec_setsV rfl
  exact ⟨t, hexec, by rw [hsum, BitVec.toNat_add], honly⟩

end Sys2Proof.Machine
end

