-- ==== Sys2Proof/Proofs/IndexRegister.lean ====
section
/-!
PROOFS. The instructions that write the index register (R150, R151): the number written, and the frame of the write.
-/

namespace Sys2Proof.Machine

variable {i : Instr} {s : State} {w : Word}

theorem onlyIndex_setI (s : State) (w : Word) : OnlyIndex s (s.setI w) := ⟨fun _ _ => rfl, fun _ => rfl, rfl⟩

/-- A handler that writes the word `w` of value `n` to `I`. -/
theorem exec_setsI {n : Nat} (h : exec i s = .next (s.setI w)) (hw : w.toNat = n) :
    ∃ t, exec i s = .next t ∧ t.i.toNat = n ∧ OnlyIndex s t :=
  ⟨_, h, hw, onlyIndex_setI s w⟩

/-- The sum of Fx1E wraps at 16 bits and not at 12 (R151). -/
theorem toNat_add_wide (w : Word) (b : Byte) : (w + wide b).toNat = (w.toNat + b.toNat) % 65536 := by
  rw [BitVec.toNat_add, toNat_wide]

/-- Settles O37: both handlers are one write to `I`, Annn of its operand and Fx1E of a sum of words. -/
theorem indexRegisterWrites : Obligations.IndexRegisterWrites := by
  intro s x nnn
  exact ⟨exec_setsI rfl (toNat_addressOperand nnn), exec_setsI rfl (toNat_add_wide s.i (s.getV x))⟩

end Sys2Proof.Machine
end

