-- ==== Sys2Proof/Proofs/Drawing.lean ====
section
/-!
PROOFS. The framebuffer writer (R170 to R174). A draw is a composition of steps that each toggle a set of cells once; the sets
of different pixels are disjoint, so the whole draw toggles exactly the cells the sprite covers.
-/

namespace Sys2Proof.Machine

/-- Settles O44: the handler writes the framebuffer alone. -/
theorem clearScreenUnsetsEveryCell : Obligations.ClearScreenUnsetsEveryCell := by
  intro s
  exact ⟨{ s with fb := Frame.clear }, rfl, Frame.cell_clear, fun _ => rfl, fun _ _ => rfl, rfl⟩

variable {P Q : Fin 32 → Fin 64 → Prop} {d d' d'' : Draw}

/-- `d'` is `d` with exactly the cells of `P` toggled, each once, and a collision noted when one of them was set (R172, R173). -/
structure TogglesCells (P : Fin 32 → Fin 64 → Prop) (d d' : Draw) : Prop where
  toggled : ∀ {r c}, P r c → Frame.cell d'.fb r c = ! Frame.cell d.fb r c
  kept : ∀ {r c}, ¬ P r c → Frame.cell d'.fb r c = Frame.cell d.fb r c
  collision : d'.collision = true ↔ d.collision = true ∨ ∃ r c, P r c ∧ Frame.cell d.fb r c = true

theorem TogglesCells.congr (h : TogglesCells P d d') (hPQ : ∀ r c, P r c ↔ Q r c) : TogglesCells Q d d' := by
  obtain rfl : P = Q := funext₂ fun r c => propext (hPQ r c)
  exact h

theorem TogglesCells.of_no_cells (hP : ∀ r c, ¬ P r c) : TogglesCells P d d where
  toggled h := absurd h (hP _ _)
  kept _ := rfl
  collision := by simp [hP]

/-- Steps that share no cell compose: the second one finds its cells as the first one found them. -/
theorem TogglesCells.trans (hP : TogglesCells P d d') (hQ : TogglesCells Q d' d'') (hdisj : ∀ r c, P r c → ¬ Q r c) :
    TogglesCells (fun r c => P r c ∨ Q r c) d d'' where
  toggled := by
    rintro r c (h | h)
    · rw [hQ.kept (hdisj r c h), hP.toggled h]
    · rw [hQ.toggled h, hP.kept fun hp => hdisj r c hp h]
  kept h := by
    obtain ⟨hp, hq⟩ := not_or.1 h
    rw [hQ.kept hq, hP.kept hp]
  collision := by
    have hfound : ∀ r c, (Q r c ∧ Frame.cell d'.fb r c = true) ↔ (Q r c ∧ Frame.cell d.fb r c = true) :=
      fun r c => and_congr_right fun hq => by rw [hP.kept fun hp => hdisj r c hp hq]
    simp only [hQ.collision, hP.collision, hfound, or_and_right, exists_or, or_assoc]

/-- The same cells toggled twice are as before, and the second pass finds set exactly what the first had set (R173). -/
theorem TogglesCells.twice (hfirst : TogglesCells P d d') (hsecond : TogglesCells P ⟨d'.fb, false⟩ d'') :
    d''.fb = d.fb ∧
      (d''.collision = true ↔ ∃ r c, Frame.cell d.fb r c = false ∧ Frame.cell d'.fb r c = true) := by
  constructor
  · refine Frame.ext_cells _ _ fun r c => ?_
    by_cases h : P r c
    · rw [hsecond.toggled h, hfirst.toggled h, Bool.not_not]
    · rw [hsecond.kept h, hfirst.kept h]
  · have hset : ∀ r c, (P r c ∧ Frame.cell d'.fb r c = true) ↔
        (Frame.cell d.fb r c = false ∧ Frame.cell d'.fb r c = true) := by
      intro r c
      by_cases h : P r c
      · simp [h, hfirst.toggled h]
      · simp [h, hfirst.kept h]
    simp only [hsecond.collision, hset, Bool.false_eq_true, false_or]

/-- A loop over steps that share no cell toggles the cells of all of them. -/
theorem TogglesCells.foldl_range {f : Draw → Nat → Draw} {C : Nat → Fin 32 → Fin 64 → Prop} (d : Draw) (m : Nat)
    (hstep : ∀ k d, TogglesCells (C k) d (f d k))
    (hdisj : ∀ {j k r c}, j < m → k < m → C j r c → C k r c → j = k) :
    TogglesCells (fun r c => ∃ k < m, C k r c) d ((List.range m).foldl f d) := by
  induction m with
  | zero => exact .of_no_cells (by simp)
  | succ m ih =>
    rw [List.range_succ, List.foldl_append]
    have hbefore := ih fun hj hk => hdisj (by omega) (by omega)
    refine (hbefore.trans (hstep m _) ?_).congr fun r c => Nat.exists_lt_succ_right.symm
    rintro r c ⟨k, hk, hCk⟩ hCm
    exact hk.ne (hdisj (by omega) (by omega) hCk hCm)

/-! ## Pixels, rows, sprites -/

variable {edge : DrawEdge} {x0 y0 : Nat}

/-- Offsets below the size of an axis land on different cells under both policies, as a wrap is a rotation of the axis. -/
theorem landsOn_injective {size p j k : Nat} (hj : j < size) (hk : k < size)
    (h : landsOn edge size p j = landsOn edge size p k) : j = k := by
  cases edge with
  | wrap => exact (Nat.ModEq.add_left_cancel' p h).eq_of_lt_of_lt hj hk
  | clip => exact Nat.add_left_cancel h

/-- The 1 bit at row offset `r` and column offset `j` falls on cell `(rr, cc)`. -/
def PixelCovers (edge : DrawEdge) (x0 y0 r j : Nat) (rr : Fin 32) (cc : Fin 64) : Prop :=
  landsOn edge 32 y0 r = rr.val ∧ landsOn edge 64 x0 j = cc.val

/-- Some 1 bit of the row byte at row offset `r` falls on cell `(rr, cc)`. -/
def RowCovers (edge : DrawEdge) (x0 y0 r : Nat) (row : Byte) (rr : Fin 32) (cc : Fin 64) : Prop :=
  ∃ j < 8, row.getLsbD (7 - j) = true ∧ PixelCovers edge x0 y0 r j rr cc

theorem drawPixel_toggles (r j : Nat) (d : Draw) :
    TogglesCells (PixelCovers edge x0 y0 r j) d (drawPixel edge x0 y0 r j d) where
  toggled h := (drawPixel_cell ..).trans (if_pos h)
  kept h := (drawPixel_cell ..).trans (if_neg h)
  collision := by simp only [drawPixel_collision, PixelCovers, and_assoc]

theorem drawRow_toggles (r : Nat) (row : Byte) (d : Draw) :
    TogglesCells (RowCovers edge x0 y0 r row) d (drawRow edge x0 y0 r row d) := by
  refine TogglesCells.foldl_range d 8 (fun j d => ?_) ?_
  · split
    next hbit => exact (drawPixel_toggles r j d).congr fun _ _ => (and_iff_right hbit).symm
    next hbit => exact .of_no_cells fun _ _ h => hbit h.1
  · rintro j k rr cc hj hk ⟨-, -, hjc⟩ ⟨-, -, hkc⟩
    exact landsOn_injective (by omega) (by omega) (hjc.trans hkc.symm)

/-- Row offset `k` of the sprite of Dxyn in state `s`, drawn. -/
def drawSpriteRow (s : State) (x y : Reg) (d : Draw) (k : Nat) : Draw :=
  drawRow s.cfg.drawEdge ((s.getV x).toNat % 64) ((s.getV y).toNat % 32) k (s.readByte (s.i.toNat + k)) d

theorem drawRows_readBytes (s : State) (x y : Reg) (n : Nat) : ∀ (r : Nat) (d : Draw),
    drawRows s.cfg.drawEdge ((s.getV x).toNat % 64) ((s.getV y).toNat % 32) r (s.readBytes (s.i.toNat + r) n) d =
      (List.range' r n).foldl (drawSpriteRow s x y) d := by
  induction n with
  | zero => intro r d; rfl
  | succ n ih => intro r d; exact ih (r + 1) _

theorem drawSprite_eq_foldl (s : State) (x y : Reg) (n : Nat) :
    drawSprite s x y n = (List.range n).foldl (drawSpriteRow s x y) ⟨s.fb, false⟩ := by
  rw [List.range_eq_range']
  exact drawRows_readBytes s x y n 0 ⟨s.fb, false⟩

theorem spriteCovers_iff (s : State) (x y : Reg) (n : Nat) (r : Fin 32) (c : Fin 64) :
    SpriteCovers s x y n r c ↔ ∃ k < n, RowCovers s.cfg.drawEdge ((s.getV x).toNat % 64) ((s.getV y).toNat % 32) k
      (s.readByte (s.i.toNat + k)) r c := by
  constructor
  · rintro ⟨k, j, hk, hj, hbit, hc, hr⟩
    exact ⟨k, hk, j, hj, hbit, hr, hc⟩
  · rintro ⟨k, hk, j, hj, hbit, hr, hc⟩
    exact ⟨k, j, hk, hj, hbit, hc, hr⟩

/-- The whole draw: no sprite is so high that it wraps onto itself, so its rows share no cell. -/
theorem drawSprite_toggles (s : State) (x y : Reg) {n : Nat} (hn : n ≤ 32) :
    TogglesCells (SpriteCovers s x y n) ⟨s.fb, false⟩ (drawSprite s x y n) := by
  rw [drawSprite_eq_foldl]
  refine (TogglesCells.foldl_range ⟨s.fb, false⟩ n (fun k d => drawRow_toggles k _ d) ?_).congr
    fun r c => (spriteCovers_iff s x y n r c).symm
  rintro j k r c hj hk ⟨_, -, -, hjr, -⟩ ⟨_, -, -, hkr, -⟩
  exact landsOn_injective (by omega) (by omega) (hjr.trans hkr.symm)

/-! ## Drawing twice -/

variable {s t : State} {x y : Reg}

/-- Where a sprite falls depends on the edge policy, memory, `I` and the two coordinate registers alone. -/
theorem spriteCovers_congr (hx : t.getV x = s.getV x) (hy : t.getV y = s.getV y) (hi : t.i = s.i) (hmem : t.mem = s.mem)
    (hcfg : t.cfg = s.cfg) (n : Nat) : SpriteCovers t x y n = SpriteCovers s x y n := by
  funext r c
  simp only [SpriteCovers, State.readByte, hcfg, hmem, hi, hx, hy]

theorem flagByte_eq_one_iff (b : Bool) : flagByte b = 1 ↔ b = true := by
  cases b <;> decide

/-- Settles O47: the first draw changes nothing that the place of the sprite depends on, so both toggle the same cells. -/
theorem drawingTwiceRestoresTheScreen : Obligations.DrawingTwiceRestoresTheScreen := by
  intro s t x y n hin h hx hy
  have hfirst := drawSprite_toggles s x y (n := n.val) (by omega)
  have hsecond := drawSprite_toggles t x y (n := n.val) (by omega)
  obtain rfl := Host.Outcome.next.inj ((execDrw_inside x y n s hin).symm.trans h)
  rw [spriteCovers_congr hx hy rfl rfl rfl] at hsecond
  obtain ⟨hfb, hcollision⟩ := hfirst.twice hsecond
  refine ⟨_, execDrw_inside x y n _ hin, hfb, ?_⟩
  rw [State.getV_setVF, if_pos rfl, flagByte_eq_one_iff]
  exact hcollision

end Sys2Proof.Machine
end

