-- ==== Sys2Proof/Proofs/KeypadTimers.lean ====
section
/-!
PROOFS. The keypad wait (R192) and the instructions that move a byte between a register and a timer (R193 to R195).
-/

namespace Sys2Proof.Machine

theorem State.exists_leastKey_of_keys_ne_zero {s : State} (hkeys : s.keys ≠ 0) : ∃ k, s.leastKey = some k :=
  Option.ne_none_iff_exists'.1 fun hnone => hkeys (s.leastKey_eq_none_iff_keys.1 hnone)

/-- A register takes the number of a key without loss. -/
theorem toNat_keyNumber (k : Fin 16) : (BitVec.ofNat 8 k.val).toNat = k.val :=
  (BitVec.toNat_ofNat ..).trans (Nat.mod_eq_of_lt (by omega))

/-- Settles O54: with no key pressed the handler is a jump two back, otherwise one register write of the key its search found. -/
theorem waitForKeyStallsOrTakesTheLeastKey : Obligations.WaitForKeyStallsOrTakesTheLeastKey := by
  intro s x
  constructor
  · intro hkeys
    have hnone : s.leastKey = none := s.leastKey_eq_none_iff_keys.2 hkeys
    exact ⟨_, execLdVxK_stalls x hnone, rfl, onlyPc_jump s _⟩
  · intro hkeys
    obtain ⟨k, hk⟩ := State.exists_leastKey_of_keys_ne_zero hkeys
    obtain ⟨hpressed, hleast⟩ := s.leastKey_some k hk
    have htakes : exec (.ldVxK x) s = .next (s.setV x (BitVec.ofNat 8 k.val)) := execLdVxK_takes x hk
    obtain ⟨t, hexec, hval, honly⟩ := exec_setsV htakes
    exact ⟨t, k, hexec, by rw [hval, toNat_keyNumber], hpressed, hleast, honly⟩

/-- Settles O55: Fx07 is one register write, Fx15 and Fx18 are each one update of a timer, which no register and no byte of
memory shares. -/
theorem timerInstructionsMoveTheByte : Obligations.TimerInstructionsMoveTheByte := by
  intro s x
  refine ⟨exec_setsV rfl, ⟨s.setDT (s.getV x), rfl, s.setDT_dt _, ?_⟩, ⟨s.setST (s.getV x), rfl, s.setST_st _, ?_⟩⟩
  · exact ⟨fun r _ => s.setDT_getV _ r, s.setDT_readByte _, rfl⟩
  · exact ⟨fun r _ => s.setST_getV _ r, s.setST_readByte _, rfl⟩

end Sys2Proof.Machine
end

