-- ==== Sys2Proof/Proofs/Faults.lean ====
section
/-!
PROOFS. Which faults arise and when (60_exceptions.md R210 to R218): the latch after a handler and after a step.
-/

namespace Sys2Proof.Machine

variable {i : Instr} {s t : State}

/-- The latch after a handler that began with an empty one: the record of the cause the table of R218 names, if any
(R214). -/
theorem exec_fault (hrun : s.fault = none) (h : exec i s = .next t) :
    t.fault = (expectedFault i s).map fun c => ⟨c, s.pc - 2, s.op⟩ := by
  cases hc : expectedFault i s with
  | some c =>
    cases (exec_raises hc).symm.trans h
    exact raise_fault s c
  | none => exact ((exec_effect h).fault_eq hc).trans hrun

/-- The table reads no field that the inputs or the fetch write. -/
theorem expectedFault_sample_advance (i : Instr) (s : State) (w : Word) :
    expectedFault i (s.sample.advance w) = expectedFault i s := by
  simp only [expectedFault, State.advance_sp, State.advance_i, State.advance_getV, State.sample_sp, State.sample_i,
    State.sample_getV]

/-- The cause a step of a running machine records: FetchBounds where `pc` cannot be fetched from (R213), otherwise the
handler's. -/
theorem step_fault_cause (hrun : s.fault = none) (h : step s = .next t) :
    t.fault.map FaultRecord.cause =
      if 4094 < s.pc.toNat then some .fetchBounds else expectedFault s.nextInstr s := by
  obtain ⟨hf, -⟩ | ⟨-, hout, rfl⟩ | ⟨-, hpc, u, hu, rfl⟩ := step_cases h
  · exact absurd hrun hf
  · simp [hout]
  · have hadvanced : (s.sample.advance (s.readWord s.pc.toNat)).fault = none := by simpa using hrun
    rw [if_neg (Nat.not_lt.2 hpc), endCycle_fault, exec_fault hadvanced hu, expectedFault_sample_advance,
      Option.map_map]
    exact Option.map_id'

/-- With no record the cause port reads 0 (R218). -/
theorem causePort_of_running (hrun : s.fault = none) : causePort s = 0 := by
  rw [causePort, hrun]

/-- Settles O16: a handler raises exactly the cause the table names, and a step adds only the fetch's own fault; the codes
are the table's. -/
theorem faultsAreExactlyTheListedOnes : Obligations.FaultsAreExactlyTheListedOnes :=
  ⟨fun _ _ _ => exec_fault, fun _ _ => step_fault_cause, rfl, rfl, rfl, rfl, rfl, fun _ => causePort_of_running⟩

end Sys2Proof.Machine
end

