-- ==== Sys2Proof/Proofs/PcStackRange.lean ====
section
/-!
PROOFS. The bounds the spec derives under R26: `pc` at most 0x10FE, a stack slot at most 4096.
-/

namespace Sys2Proof.Machine

variable {i : Instr} {s t : State}

/-- Only 2nnn writes a slot, and it writes the `pc` its handler sees (R27, R113). -/
theorem exec_stack_le {bound : Nat} (h : exec i s = .next t) (hpc : s.pc.toNat ≤ bound)
    (hstack : ∀ j : Fin 16, s.stack[j.val].toNat ≤ bound) (j : Fin 16) : t.stack[j.val].toNat ≤ bound := by
  cases hc : expectedFault i s with
  | some c =>
    cases (exec_raises hc).symm.trans h
    exact hstack j
  | none =>
    cases i with
    | call nnn =>
      cases (execCall_pushes nnn s (sp_lt_of_call_completes hc)).symm.trans h
      simp only [Vector.getElem_set]
      split
      · exact hpc
      · exact hstack j
    | _ =>
      rw [(exec_effect h).stack_eq (by simp)]
      exact hstack j

theorem skipTarget_le (a : Word) (p : Prop) [Decidable p] (ha : a.toNat ≤ 4094) : (skipTarget a p).toNat ≤ 4098 := by
  unfold skipTarget
  split <;> bv_omega

/-- Every row of the table of R26 stays at most 0x10FE, which Bnnn reaches with nnn = 0xFFF and V[0] = 0xFF. -/
theorem pcAfter_le (i : Instr) (a : Word) (s : State) (ha : a.toNat ≤ 4094)
    (hstack : ∀ j : Fin 16, s.stack[j.val].toNat ≤ 4096) : (pcAfter i a s).toNat ≤ 0x10FE := by
  cases i with
  | seImm _ _ | sneImm _ _ | seReg _ _ | sneReg _ _ | skp _ | sknp _ => exact (skipTarget_le a _ ha).trans (by decide)
  | jp nnn | call nnn =>
    rw [pcAfter, ← addressOperand_eq_ofNat, toNat_addressOperand]
    omega
  | jpV0 nnn =>
    rw [pcAfter, BitVec.toNat_ofNat]
    omega
  | ret => exact (hstack ⟨s.sp.val - 1, by omega⟩).trans (by decide)
  | ldVxK _ =>
    rw [pcAfter]
    split <;> bv_omega
  | _ =>
    rw [pcAfter]
    bv_omega

/-- Settles O21: where the Cycle fetches, `pc` ends as tabled or stays, and the slots take at most the post-fetch `pc`. -/
theorem everyStepKeepsPcAndStackInRange : Obligations.EveryStepKeepsPcAndStackInRange := by
  rintro s t ⟨hpc, hstack⟩ h
  obtain ⟨-, rfl⟩ | ⟨-, -, rfl⟩ | ⟨hrun, hfetch, u, hu, rfl⟩ := step_cases h
  · exact ⟨hpc, hstack⟩
  · simpa [State.PcStackInRange] using And.intro hpc hstack
  · obtain ⟨hcompletes, hfaults⟩ := pcAfterTheCycleIsAsTabled s _ hrun hfetch h
    constructor
    · by_cases hok : (endCycle s.op u).fault = none
      · rw [hcompletes hok]
        exact pcAfter_le _ _ _ hfetch (by simpa using hstack)
      · rw [hfaults hok]
        exact hpc
    · rw [endCycle_stack]
      refine exec_stack_le hu ?_ (by simpa using hstack)
      rw [State.advance_pc, State.sample_pc]
      bv_omega

end Sys2Proof.Machine
end

