-- ==== Sys2Proof/Proofs/FaultingCycle.lean ====
section
/-!
PROOFS. The handler that raises and the Cycle that faults (R213, R215), and the record it leaves in the latch.
-/

namespace Sys2Proof.Machine

variable {i : Instr} {s t : State} {c : FaultCause} {r : FaultRecord}

theorem raised_raise (s : State) (c : FaultCause) : Raised c s (raise s c) :=
  ⟨rfl, rfl, fun _ => rfl, fun _ _ => rfl, rfl⟩

/-- A handler on a state where the table of R218 names a cause (R215). -/
theorem exec_raised (hc : expectedFault i s = some c) : ∃ t, exec i s = .next t ∧ Raised c s t :=
  ⟨_, exec_raises hc, raised_raise s c⟩

/-- Settles O15: the fetch's own fault latches its record on the sampled state. -/
theorem fetchPastTheEndFaults : Obligations.FetchPastTheEndFaults := by
  intro s hrun hpc
  refine ⟨_, step_fetchBounds s hrun hpc, ?_, fun a => ?_, fun q _ => ?_, ?_⟩
  · rw [State.raiseFetch_fault, State.sample_pc]
  · rw [State.raiseFetch_readByte, State.sample_readByte]
  · rw [State.raiseFetch_getV, State.sample_getV]
  · rfl

/-- A handler that raises, and the end of its Cycle, undo what the fetch wrote: only the latch is left changed (R215). -/
theorem endCycle_raise_advance {op0 : Word} (hop : s.op = op0) (c : FaultCause) (w : Word) :
    endCycle op0 (raise (s.advance w) c) = { s with fault := some ⟨c, s.pc, w⟩ } := by
  subst hop
  rw [endCycle_of_some _ _ _ (raise_fault ..), raise, State.advance]
  simp [State.latch]

/-- What a faulting Cycle leaves: the sampled state with a record of A and of the fetched word, or 0 where the fetch
failed (R213, R215). -/
theorem step_of_fault (hrun : s.fault = none) (h : step s = .next t) (hr : t.fault = some r) :
    r.addr = s.pc ∧ r.opcode = (if 4094 < s.pc.toNat then 0 else s.readWord s.pc.toNat) ∧
      t = { s.sample with fault := some r } := by
  obtain ⟨hf, -⟩ | ⟨-, hpc, rfl⟩ | ⟨-, hpc, u, hu, rfl⟩ := step_cases h
  · exact absurd hrun hf
  · cases hr
    exact ⟨s.sample_pc, (if_pos hpc).symm, rfl⟩
  · rw [endCycle_fault] at hr
    cases hc : expectedFault s.nextInstr (s.sample.advance (s.readWord s.pc.toNat)) with
    | some c =>
      cases (exec_raises hc).symm.trans hu
      obtain rfl : (⟨c, s.sample.pc, s.readWord s.pc.toNat⟩ : FaultRecord) = r := by simpa using hr
      exact ⟨s.sample_pc, (if_neg (Nat.not_lt.2 hpc)).symm, endCycle_raise_advance s.sample_op c _⟩
    | none => simp [(exec_effect hu).fault_eq hc, hrun] at hr

/-- Settles O17: sampling writes none of the listed fields. -/
theorem faultingCycleChangesOnlyTheLatch : Obligations.FaultingCycleChangesOnlyTheLatch := by
  intro s t r hrun h hr
  obtain ⟨haddr, hopcode, rfl⟩ := step_of_fault hrun h hr
  exact ⟨haddr, hopcode, by simp⟩

/-- Neither sampling nor a record in the latch changes what the table of R218 reads. -/
theorem expectedFault_sample_latched (i : Instr) (s : State) (f : Option FaultRecord) :
    expectedFault i { s.sample with fault := f } = expectedFault i s :=
  expectedFault_sample_advance i s s.op

/-- Settles O22: a step that records a fault leaves the rest of the sampled state, so the condition of the cause, and the
word at `pc`, stand as they were. -/
theorem everyStepKeepsTheLatchJustified : Obligations.EveryStepKeepsTheLatchJustified := by
  intro s t hs h
  cases hrun : s.fault with
  | some r =>
    rw [step_halted s r hrun] at h
    cases h
    exact hs
  | none =>
    cases hr : t.fault with
    | none => simp only [State.LatchJustified, hr]
    | some r =>
      have hcause := step_fault_cause hrun h
      obtain ⟨haddr, hopcode, rfl⟩ := step_of_fault hrun h hr
      refine ⟨haddr.trans s.sample_pc.symm, ?_⟩
      by_cases hpc : 4094 < s.pc.toNat
      · rw [if_pos hpc] at hopcode hcause
        rw [State.sample_pc, if_pos hpc]
        exact ⟨Option.some.inj hcause, hopcode⟩
      · rw [if_neg hpc] at hopcode hcause
        rw [State.sample_pc, if_neg hpc, expectedFault_sample_latched, hopcode]
        exact ⟨(s.readWord_sample _).symm, hcause.symm⟩

end Sys2Proof.Machine
end

