-- ==== Sys2Proof/Proofs/Reset.lean ====
section
/-!
PROOFS. The machine after reset and after the host's load (R36, R240, R244, R245), and the halted machine, which only a reset
sets going again (R97, R216).
-/

namespace Sys2Proof.Machine

variable {s : State}

/-! ## Reset -/

/-- After reset nothing is listed, so every address reads as the table of R36 has it. -/
theorem readByte_resetWith (c : Config) (inputs : List Input) (a : Nat) :
    (State.resetWith c inputs).readByte a = initialByte c a := rfl

theorem initialByte_outside_font (c : Config) {a : Nat} (ha : a < 0x050 ∨ 0x0A0 ≤ a) : initialByte c a = 0 :=
  if_neg (by omega)

theorem initialByte_font (c : Config) {k : Nat} (hk : k < 80) : initialByte c (0x050 + k) = fontByte c k := by
  rw [initialByte, if_pos (by omega), Nat.add_sub_cancel_left]

/-- Byte `5 * (g + 1) + r` of FONT is row `r` of glyph `g + 1`, counted from glyph 0 (R22). -/
theorem fontByte_glyph (c : Config) (g : Fin 15) (r : Fin 5) :
    fontByte c (5 * (g.val + 1) + r.val) = c.font.glyphs[g.val][r.val] := by
  have hrow : (5 * (g.val + 1) + r.val) % 5 = r.val := by omega
  have hglyph : ((5 * (g.val + 1) + r.val) / 5 - 1) % 15 = g.val := by omega
  rw [fontByte, if_neg (by omega)]
  simp only [hrow, hglyph]

/-- Glyph 0 is the document's, whatever the parameter FONT is (R22). -/
theorem initialByte_glyphZero (c : Config) (r : Fin 5) : initialByte c (0x050 + r.val) = glyphZero[r.val] := by
  rw [initialByte_font c (by omega), fontByte, if_pos r.isLt]
  simp only [Nat.mod_eq_of_lt r.isLt]

theorem readBytes_glyphZero (hs : ∀ r : Fin 5, s.readByte (0x050 + r.val) = glyphZero[r.val]) :
    s.readBytes 0x050 5 = [0xF0, 0x90, 0x90, 0x90, 0xF0] := by
  simpa [State.readBytes, glyphZero, Fin.forall_fin_succ] using hs

theorem getV_resetWith (c : Config) (inputs : List Input) (r : Reg) : (State.resetWith c inputs).getV r = 0 :=
  Vector.getElem_replicate _

/-- Settles O1: memory by the three ranges of the table, every other field by its own value. -/
theorem resetLeavesTheStatedValues : Obligations.ResetLeavesTheStatedValues := by
  refine ⟨rfl, ?_⟩
  rintro c inputs s rfl
  refine ⟨fun a ha => ?outside, fun k hk => ?font, ?glyphZero, fun g r => ?glyph, getV_resetWith c inputs, rfl, rfl,
    fun j => ?stack, rfl, rfl, rfl, Frame.cell_clear, rfl, rfl, rfl⟩
  case outside => exact initialByte_outside_font c (by omega)
  case font => exact initialByte_font c hk
  case glyphZero => exact readBytes_glyphZero (initialByte_glyphZero c)
  case glyph =>
    rw [readByte_resetWith, Nat.add_assoc, initialByte_font c (by omega)]
    exact fontByte_glyph c g r
  case stack => exact Vector.getElem_replicate _

/-- Settles O2: the list of memory is empty, `pc` and the slots are within their bounds, and there is no record. -/
theorem resetMeetsEveryInvariant : Obligations.ResetMeetsEveryInvariant := by
  intro c inputs
  have hpc : 0x200 ≤ 0x10FE := by decide
  refine ⟨rfl, ⟨hpc, fun j => ?_⟩, trivial⟩
  simp [State.resetWith]

/-- Settles O3: a host's reset is the reset state but for the count of free draws. -/
theorem hostResetRestoresTheResetState : Obligations.HostResetRestoresTheResetState :=
  fun s => ⟨rfl, rfl, readByte_resetWith s.cfg s.inputs, rfl⟩

/-! ## The host's load -/

theorem State.writeBytes_eq (bs : List Byte) : ∀ (s : State) (a : Nat),
    s.writeBytes a bs = { s with mem := (s.writeBytes a bs).mem } := by
  induction bs with
  | nil => intro s a; rfl
  | cons b bs ih => intro s a; exact ih (s.writeByte a b) (a + 1)

/-- Settles O4: the load is one block store into the reset memory, guarded by the size check. -/
theorem bootPlacesTheImageOrRefusesIt : Obligations.BootPlacesTheImageOrRefusesIt := by
  intro c image inputs
  constructor
  · intro hlen
    have hfit : 0x200 + image.length ≤ 4096 := by omega
    have hcanonical : (State.resetWith c inputs).MemoryCanonical := rfl
    have hread := fun a => State.readByte_writeBytes image a hfit hcanonical
    refine ⟨_, if_pos hlen, fun k hk => ?_, fun a ha => ?_, State.MemoryForm_writeBytes image hfit hcanonical,
      State.writeBytes_eq ..⟩
    · rw [hread, dif_pos (by omega)]
      simp only [Nat.add_sub_cancel_left]
    · rw [hread, dif_neg (by omega)]
      exact readByte_resetWith c inputs a
  · intro hlen
    exact if_neg (Nat.not_le.2 hlen)

/-! ## The halted machine -/

/-- A run of any length from a halted state ends where it began. -/
theorem run_halted (hs : s.Halted) (k : Nat) : Sys2Proof.core.run k s = .next s := by
  obtain ⟨r, hr⟩ := Option.ne_none_iff_exists'.1 hs
  induction k with
  | zero => rfl
  | succ k ih => exact (run_succ_of_step (M := Sys2Proof.core) (step_halted s r hr)).trans ih

/-- Settles O14, by induction on the length of the run; a reset empties the latch. -/
theorem haltedMachineDoesNothingUntilReset : Obligations.HaltedMachineDoesNothingUntilReset :=
  fun _ hs => ⟨run_halted hs, fun hreset => hreset rfl⟩

end Sys2Proof.Machine
end

