-- ==== Sys2Proof/Proofs/Cycle.lean ====
section
/-!
PROOFS. The Cycle of R99 from the dispatch of its word to its end: the words of R76, the decoded instruction between the fetch
and the timer step, the timers, the opcode latch, the no-op.
-/

namespace Sys2Proof

/-! ## The words of R76 -/

/-- A word of family 0 with any bits between its two keys. -/
theorem toNat_family0Word (m : Byte) (k : BitVec 4) : (0x0#4 ++ m ++ k).toNat = m.toNat * 16 + k.toNat := by
  rw [append_toNat, append_toNat]
  simp

theorem family_family0Word (m : Byte) (k : BitVec 4) : (family (0x0#4 ++ m ++ k)).toNat = 0 := by
  rw [family_toNat, toNat_family0Word]
  omega

theorem lowNibble_family0Word (m : Byte) (k : BitVec 4) : (nibble (0x0#4 ++ m ++ k) 0).toNat = k.toNat := by
  rw [nibble_toNat, toNat_family0Word]
  omega

/-- Settles O9: the words of each group have the keys of their canonical pattern, and its operands. -/
theorem aliasWordsSelectTheCanonicalHandler : Obligations.AliasWordsSelectTheCanonicalHandler := by
  refine ⟨fun m => ?family0, fun x y n => ?families5And9, fun x y => ?familyE, fun x y => ?family8, rfl⟩
  case family0 => simp [decodeWord, decodeFamily0, family_family0Word, lowNibble_family0Word]
  case families5And9 => simp [decodeWord]
  case familyE => simp [decodeWord, decodeFamilyE]
  case family8 => simp [decodeWord, decodeFamily8]

end Sys2Proof

namespace Sys2Proof.Machine

variable {i : Instr} {s t : State}

/-! ## The decoded instruction -/

theorem endCycle_eq_ite (op0 : Word) (u : State) : endCycle op0 u =
    if u.fault = none then { u with dt := timerTick u.dt, st := timerTick u.st } else { u with op := op0 } := by
  split
  next hok => exact endCycle_of_none op0 u hok
  next hfault =>
    obtain ⟨r, hr⟩ := Option.ne_none_iff_exists'.1 hfault
    exact endCycle_of_some op0 u r hr

/-- The two bytes at `pc` are the word the Cycle dispatches on (R50). -/
theorem State.nextInstr_eq_of_decode
    (h : decode [s.readByte s.pc.toNat, s.readByte (s.pc.toNat + 1)] = .ok (i, [])) : s.nextInstr = i :=
  congrArg Prod.fst (Except.ok.inj h)

/-- Settles O12: the Cycle that fetches, with its handler's state and its end written out. -/
theorem stepRunsTheDecodedInstruction : Obligations.StepRunsTheDecodedInstruction := by
  intro s i hrun hpc hdecode _
  obtain ⟨u, hu, -⟩ := exec_answers i { s.sample with op := s.readWord s.pc.toNat, pc := s.pc + 2 }
  have hexec : exec s.nextInstr (s.sample.advance (s.readWord s.pc.toNat)) = .next u := by
    rw [State.nextInstr_eq_of_decode hdecode, State.advance, State.sample_pc, hu]
  rw [hu]
  exact (step_completes hrun hpc hexec).trans (congrArg _ (endCycle_eq_ite s.op u))

/-! ## The timers -/

/-- A Cycle that does not fault ran a handler, and the timer step after it. -/
theorem step_completed (hrun : s.fault = none) (h : step s = .next t) (hok : t.fault = none) :
    ∃ u, exec s.nextInstr (s.sample.advance (s.readWord s.pc.toNat)) = .next u ∧ t = u.timerStep := by
  obtain ⟨hf, -⟩ | ⟨-, -, rfl⟩ | ⟨-, -, u, hu, rfl⟩ := step_cases h
  · exact absurd hrun hf
  · cases hok
  · rw [endCycle_fault] at hok
    exact ⟨u, hu, endCycle_of_none s.op u hok⟩

/-- Settles O18: the handler leaves a timer at V[x] or as it was, and the timer step lowers it by 1. -/
theorem timersStepOncePerCycle : Obligations.TimersStepOncePerCycle := by
  intro s t hrun h hok
  obtain ⟨u, hu, rfl⟩ := step_completed hrun h hok
  rw [State.timerStep_dt, State.timerStep_st, toNat_timerTick, toNat_timerTick]
  constructor
  · split
    next x hi =>
      rw [hi] at hu
      cases hu
      simp
    next hno => simp [(exec_effect hu).dt_eq hno]
  · split
    next x hi =>
      rw [hi] at hu
      cases hu
      simp
    next hno => simp [(exec_effect hu).st_eq hno]

/-! ## The opcode latch -/

/-- Sampling does not look at the opcode latch, and the fetch overwrites it. -/
theorem State.sample_advance_withOp (s : State) (w v : Word) :
    ({ s with op := w } : State).sample.advance v = s.sample.advance v := by
  unfold State.sample
  cases s.inputs <;> rfl

theorem State.sample_raiseFetch_withOp (s : State) (w : Word) :
    ({ s with op := w } : State).sample.raiseFetch = { s.sample.raiseFetch with op := w } := by
  unfold State.sample
  cases s.inputs <;> rfl

/-- Settles O28: the old latch comes back only at the end of a Cycle that faults. -/
theorem opcodeLatchIsUnobservable : Obligations.OpcodeLatchIsUnobservable := by
  intro s t w h
  obtain ⟨hf, rfl⟩ | ⟨hrun, hpc, rfl⟩ | ⟨hrun, hpc, u, hu, rfl⟩ := step_cases h
  · obtain ⟨r, hr⟩ := Option.ne_none_iff_exists'.1 hf
    exact ⟨_, step_halted { t with op := w } r hr, rfl, fun hrun => absurd hrun hf⟩
  · refine ⟨_, step_fetchBounds { s with op := w } hrun hpc, ?_, fun _ hok => by cases hok⟩
    rw [State.sample_raiseFetch_withOp]
  · rw [← s.sample_advance_withOp w] at hu
    refine ⟨_, step_completes (s := { s with op := w }) hrun hpc hu, ?_, fun _ hok => ?_⟩
    · cases hfault : u.fault with
      | none => rw [endCycle_of_none _ u hfault, endCycle_of_none _ u hfault]
      | some r => rw [endCycle_of_some _ u r hfault, endCycle_of_some _ u r hfault]
    · rw [endCycle_fault] at hok
      rw [endCycle_of_none _ u hok, endCycle_of_none _ u hok]

/-! ## The no-op -/

/-- Settles O56: its handler answers the state itself, so its Cycle is the fetch and the timer step. -/
theorem noOpOnlyAdvances : Obligations.NoOpOnlyAdvances := by
  refine ⟨fun s w => rfl, fun s w hrun hpc hnop => ?_⟩
  obtain ⟨-, hword⟩ := decodeWord_eq_nop_iff.1 hnop
  have hexec : exec s.nextInstr (s.sample.advance (s.readWord s.pc.toNat)) =
      .next (s.sample.advance (s.readWord s.pc.toNat)) := by rw [hnop]; rfl
  refine ⟨_, step_completes hrun hpc hexec, ?_⟩
  rw [endCycle_of_none _ _ (by simpa using hrun)]
  refine ⟨hword, by simp, ?dt, ?st, fun q _ => by simp, fun a => by simp, rfl⟩
  case dt => simp [toNat_timerTick]
  case st => simp [toNat_timerTick]

end Sys2Proof.Machine
end

