-- ==== Sys2Proof/Proofs/RaisingInstructions.lean ====
section
/-!
PROOFS. The instructions with a fault of their own, each in bounds and beyond: call and return (R111, R113), the skips on a key
(R190, R191), the blocks of memory at I (R153 to R155), with the glyph address that points I at one (R152).
-/

namespace Sys2Proof.Machine

variable {i : Instr} {s : State} {x : Reg} {bs : List Byte}

/-! ## Call and return -/

/-- Settles O50: with room on the stack the handler is one slot write and a jump, without it the fault of the table. -/
theorem callPushesAndJumps : Obligations.CallPushesAndJumps := by
  intro s nnn
  constructor
  · intro hsp
    refine ⟨_, execCall_pushes nnn s hsp, fun j => ?slots, rfl, toNat_addressOperand nnn, fun _ _ => rfl,
      fun _ => rfl, rfl⟩
    case slots => simp only [Vector.getElem_set, eq_comm]
  · exact fun hsp => exec_raised (if_pos hsp)

/-- Settles O51: above an empty stack the handler reads the slot below SP, at an empty one it raises the fault of the table. -/
theorem returnPopsThePc : Obligations.ReturnPopsThePc := by
  intro s
  constructor
  · intro hsp
    exact ⟨_, execRet_pops s hsp, rfl, rfl, fun _ _ => rfl, fun _ => rfl, rfl⟩
  · exact fun hsp => exec_raised (if_pos hsp)

/-- Settles O52: the slot below the SP the call leaves is the one it wrote. -/
theorem returnGoesToTheInstructionAfterTheCall : Obligations.ReturnGoesToTheInstructionAfterTheCall := by
  intro s t t' nnn hsp hcall hstack hsp'
  obtain rfl := Host.Outcome.next.inj ((execCall_pushes nnn s hsp).symm.trans hcall)
  have hval : t'.sp.val = s.sp.val + 1 := congrArg Fin.val hsp'
  refine ⟨_, execRet_pops t' (by omega), ?pc, ?sp⟩
  case pc => simp [hstack, hval]
  case sp => simp [hval]

/-! ## Skips on a key -/

/-- Both key skips, `want` telling them apart, on a register that names a key. -/
theorem exec_keySkips {want : Bool} (h : exec i s = .next (keySkip want x s)) (hx : (s.getV x).toNat ≤ 15) :
    ∃ t, exec i s = .next t ∧
      t.pc = (if s.keys.getLsbD (s.getV x).toNat = want then s.pc + 2 else s.pc) ∧ OnlyPc s t := by
  rw [keySkip_inside want x s hx] at h
  exact exec_skips h beq_iff_eq

/-- Settles O53: up to 15 each handler is a skip on the state of the key, above 15 the fault of the table. -/
theorem keySkipsTestTheNamedKey : Obligations.KeySkipsTestTheNamedKey := by
  intro s x
  constructor
  · exact fun hx => ⟨exec_keySkips rfl hx, exec_keySkips rfl hx⟩
  · exact fun hx => ⟨exec_raised (if_pos hx), exec_raised (if_pos hx)⟩

/-! ## Stores -/

theorem onlyBytes_writeBytes {a : Nat} (hfit : a + bs.length ≤ 4096) (hs : s.MemoryCanonical) :
    OnlyBytes a bs.length s (s.writeBytes a bs) := by
  refine ⟨fun q _ => s.writeBytes_getV a bs q, fun k hk => ?_, State.writeBytes_eq ..⟩
  rw [State.readByte_writeBytes bs k hfit hs, dif_neg (by omega)]

theorem readByte_writeBytes_block {a k : Nat} (hfit : a + bs.length ≤ 4096) (hs : s.MemoryCanonical)
    (hk : k < bs.length) : (s.writeBytes a bs).readByte (a + k) = bs[k] := by
  rw [State.readByte_writeBytes bs _ hfit hs, dif_pos (by omega)]
  simp only [Nat.add_sub_cancel_left]

/-- A number below 256, as a decimal digit is, is the value of its byte. -/
theorem toNat_ofNat_byte {n : Nat} (hn : n < 256) : (BitVec.ofNat 8 n).toNat = n :=
  (BitVec.toNat_ofNat ..).trans (Nat.mod_eq_of_lt hn)

/-- Settles O39: in bounds the handler is one block store of the digits, beyond them the fault of the table. -/
theorem storeDecimalDigits : Obligations.StoreDecimalDigits := by
  intro s x
  constructor
  · intro hs hi
    have hfit : s.i.toNat + (decimalDigits (s.getV x)).length ≤ 4096 := Nat.add_le_add_right hi 3
    have hread := fun k (hk : k < 3) => congrArg BitVec.toNat (readByte_writeBytes_block hfit hs hk)
    have hlt := (s.getV x).isLt
    refine ⟨_, execLdBVx_inside x s hi, ?hundreds, ?tens, ?ones, onlyBytes_writeBytes hfit hs⟩
    case hundreds => exact (hread 0 (by decide)).trans (toNat_ofNat_byte (by omega))
    case tens => exact (hread 1 (by decide)).trans (toNat_ofNat_byte (by omega))
    case ones => exact (hread 2 (by decide)).trans (toNat_ofNat_byte (by omega))
  · exact fun hi => exec_raised (if_pos (by omega))

/-- What Fx55 leaves at the addresses from I on. -/
theorem readByte_writeBytes_regBlock {r : Reg} (hs : s.MemoryCanonical) (hi : s.i.toNat + x.val ≤ 4095)
    (hr : r.val ≤ x.val) : (s.writeBytes s.i.toNat (s.regBlock x)).readByte (s.i.toNat + r.val) = s.getV r := by
  have hlen := s.regBlock_length x
  rw [readByte_writeBytes_block (by omega) hs (by omega), State.regBlock_getElem]

/-- Settles O40: in bounds the handler is one block store of the registers, beyond them the fault of the table. -/
theorem storeRegistersToMemory : Obligations.StoreRegistersToMemory := by
  intro s x
  constructor
  · intro hs hi
    have hframe := onlyBytes_writeBytes (bs := s.regBlock x) (a := s.i.toNat) (by rw [State.regBlock_length]; omega) hs
    rw [State.regBlock_length] at hframe
    exact ⟨_, execLdMemVx_inside x s hi, fun r => readByte_writeBytes_regBlock hs hi, hframe⟩
  · exact fun hi => exec_raised (if_pos hi)

/-! ## Loads -/

/-- Settles O41: in bounds the handler is one block load, beyond them the fault of the table. -/
theorem loadRegistersFromMemory : Obligations.LoadRegistersFromMemory := by
  intro s x
  constructor
  · exact fun hi => ⟨_, execLdVxMem_inside x s hi, s.getV_loadRegs x, fun _ => rfl, rfl⟩
  · exact fun hi => exec_raised (if_pos hi)

/-- Settles O42: the store leaves I, so the load reads the addresses the store wrote. -/
theorem storeThenLoadRestoresTheRegisters : Obligations.StoreThenLoadRestoresTheRegisters := by
  intro s t t' x hs hin hstore hmem hcfg hi
  obtain rfl := Host.Outcome.next.inj ((execLdMemVx_inside x s hin).symm.trans hstore)
  rw [State.writeBytes_i] at hi
  refine ⟨_, execLdVxMem_inside x t' (hi ▸ hin), fun r hr => ?_⟩
  rw [State.getV_loadRegs, if_pos hr, hi, SameMemory.of_mem_cfg_eq hmem hcfg]
  exact readByte_writeBytes_regBlock hs hin hr

/-! ## The glyph address -/

/-- `0x050 + 5 * V[x]` is at most 0x54B and does not wrap (R152). -/
theorem toNat_glyphAddress (b : Byte) : (glyphAddress b).toNat = 0x050 + 5 * b.toNat := by
  have hb := b.isLt
  rw [glyphAddress, BitVec.toNat_add, BitVec.toNat_mul, toNat_wide]
  simp
  omega

/-- Settles O38: the handler is one write to `I`. -/
theorem glyphAddressIsUnmasked : Obligations.GlyphAddressIsUnmasked := by
  intro s x
  exact exec_setsI rfl (toNat_glyphAddress (s.getV x))

/-- Settles O43: with V[x] = 0 the address is that of glyph 0. -/
theorem fontDigitZeroReadsBack : Obligations.FontDigitZeroReadsBack := by
  intro s x hx hfont
  refine ⟨_, rfl, ?_⟩
  rw [State.setI_i, toNat_glyphAddress, hx]
  refine readBytes_glyphZero fun r => ?_
  rw [State.setI_readByte, hfont _ (by omega) (by omega)]
  exact initialByte_glyphZero s.cfg r

end Sys2Proof.Machine
end

