-- ==== Sys2Proof/Proofs/LogicArithmetic.lean ====
section
/-!
PROOFS. The logic operations, which write one register and no flag (R133 to R135); the operations with a flag, which write it
last (R136 to R140); the random byte (R142).
-/

namespace Sys2Proof.Machine

variable {i : Instr} {s : State} {x : Reg} {b f : Byte}

/-- Settles O32: each handler is one register write. -/
theorem bitwiseOperationsLeaveTheFlag : Obligations.BitwiseOperationsLeaveTheFlag := by
  intro s x y
  exact ⟨exec_setsV rfl, exec_setsV rfl, exec_setsV rfl⟩

/-! ## Results with a flag -/

theorem onlyRegs_setResultFlag (s : State) (x : Reg) (b f : Byte) : OnlyRegs [x, 15] s (s.setResultFlag x b f) := by
  refine ⟨fun q hq => ?_, fun _ => rfl, rfl⟩
  obtain ⟨hx, h15⟩ : q ≠ x ∧ q ≠ 15 := by simpa using hq
  rw [State.getV_setResultFlag, if_neg h15, if_neg hx]

/-- A handler that writes the result `b` to the register `x` and then the flag `f` to VF, where the flag is what remains with
`x = 15` (R11). `B` and `F` are what is claimed of the two. -/
theorem exec_setsResultFlag {B F : Byte → Prop} (h : exec i s = .next (s.setResultFlag x b f)) (hf : F f) (hb : B b) :
    ∃ t, exec i s = .next t ∧ F (t.getV 15) ∧ (x ≠ 15 → B (t.getV x)) ∧ OnlyRegs [x, 15] s t := by
  refine ⟨_, h, ?_, fun hx => ?_, onlyRegs_setResultFlag s x b f⟩
  · rwa [State.getV_setResultFlag, if_pos rfl]
  · rwa [State.getV_setResultFlag, if_neg hx, if_pos rfl]

theorem flagByte_decide (p : Prop) [Decidable p] : flagByte (decide p) = if p then 1 else 0 := by
  simp [flagByte]

theorem toNat_sub_byte (a b : Byte) : (a - b).toNat = (a.toNat + 256 - b.toNat) % 256 := by
  bv_omega

/-- Settles O33: the flag is the carry of the true sum, the result the sum of two bytes. -/
theorem addSetsTheCarry : Obligations.AddSetsTheCarry := by
  intro s x y
  exact exec_setsResultFlag (B := fun b => b.toNat = ((s.getV x).toNat + (s.getV y).toNat) % 256)
    (F := fun f => f = if (s.getV x).toNat + (s.getV y).toNat > 255 then 1 else 0) rfl (flagByte_decide _)
    (BitVec.toNat_add ..)

/-- Both subtractions, `a` the minuend and `b` the subtrahend (R137, R139). -/
theorem exec_subtracts {a b : Byte} (h : exec i s = .next (s.setResultFlag x (a - b) (noBorrowFlag a b))) :
    ∃ t, exec i s = .next t ∧ t.getV 15 = (if a.toNat ≥ b.toNat then 1 else 0) ∧
      (x ≠ 15 → (t.getV x).toNat = (a.toNat + 256 - b.toNat) % 256) ∧ OnlyRegs [x, 15] s t :=
  exec_setsResultFlag (B := fun d => d.toNat = (a.toNat + 256 - b.toNat) % 256)
    (F := fun f => f = if a.toNat ≥ b.toNat then 1 else 0) h (flagByte_decide _) (toNat_sub_byte a b)

/-- Settles O34: the two handlers are one subtraction with the operands exchanged. -/
theorem subtractsSetNoBorrow : Obligations.SubtractsSetNoBorrow := by
  intro s x y
  exact ⟨exec_subtracts rfl, exec_subtracts rfl⟩

theorem toNat_flagByte (b : Bool) : (flagByte b).toNat = b.toNat := by
  cases b <;> rfl

/-- A bit as a flag is the bit as a number. -/
theorem toNat_flagByte_getLsbD (a : Byte) (k : Nat) : (flagByte (a.getLsbD k)).toNat = a.toNat / 2 ^ k % 2 := by
  rw [toNat_flagByte, ← BitVec.testBit_toNat, Nat.toNat_testBit]

/-- Settles O35: a shift by one halves or doubles, and the bit it drops is the lowest or the highest. -/
theorem shiftsMoveByOneAndKeepTheBit : Obligations.ShiftsMoveByOneAndKeepTheBit := by
  intro s x
  have hlt := (s.getV x).isLt
  constructor
  · refine exec_setsResultFlag (F := fun f => f.toNat = (s.getV x).toNat % 2)
      (B := fun b => b.toNat = (s.getV x).toNat / 2) rfl ?_ ?_
    · rw [lowBitFlag, toNat_flagByte_getLsbD]
      simp
    · rw [BitVec.toNat_ushiftRight, Nat.shiftRight_eq_div_pow]
  · refine exec_setsResultFlag (F := fun f => f.toNat = (s.getV x).toNat / 128)
      (B := fun b => b.toNat = 2 * (s.getV x).toNat % 256) rfl ?_ ?_
    · rw [highBitFlag, toNat_flagByte_getLsbD]
      omega
    · rw [BitVec.toNat_shiftLeft, Nat.shiftLeft_eq, Nat.mul_comm]

/-! ## The random byte -/

/-- Settles O36: the handler is one register write, and the Cycle gives it the byte that the tick presents. -/
theorem randomByteIsMasked : Obligations.RandomByteIsMasked := by
  constructor
  · intro s x kk
    exact exec_setsV rfl
  · intro s x kk keys rnd hrun hpc hi
    refine ⟨_, step_completes (s := { s with inputs := ⟨keys, rnd⟩ :: s.inputs }) hrun hpc (congrArg (exec · _) hi), ?_⟩
    rw [endCycle_getV, State.getV_setV_same]
    rfl

end Sys2Proof.Machine
end

