-- ==== Sys2Proof/Proofs/SpriteDraw.lean ====
section
/-!
PROOFS. Dxyn as one instruction (R172 to R174): what it draws and its collision flag, and the two edge policies on a sprite
inside the grid.
-/

namespace Sys2Proof.Machine

variable {P : Fin 32 → Fin 64 → Prop} {d d' d'' : Draw} {s : State} {x y : Reg} {n : Nat} {edge : DrawEdge}

/-! ## Cells and collision flag -/

theorem flagByte_eq_zero_iff (b : Bool) : flagByte b = 0 ↔ b = false := by
  cases b <;> decide

/-- The detector of a whole draw: a cell the sprite covers was set (R173). -/
theorem drawSprite_collision (s : State) (x y : Reg) (hn : n ≤ 32) :
    (drawSprite s x y n).collision = true ↔ ∃ r c, SpriteCovers s x y n r c ∧ Frame.cell s.fb r c = true := by
  simpa using (drawSprite_toggles s x y hn).collision

/-- Settles O45: in bounds the handler is one draw, whose collision it writes to VF, beyond them the fault of the table. -/
theorem drawTogglesExactlyTheSpriteCells : Obligations.DrawTogglesExactlyTheSpriteCells := by
  intro s x y n
  have hn : n.val ≤ 32 := by omega
  constructor
  · intro hin
    have htoggles := drawSprite_toggles s x y hn
    refine ⟨_, execDrw_inside x y n s hin, fun r c => ⟨htoggles.toggled, htoggles.kept⟩, fun hset => ?collides,
      fun hunset => ?clear, fun q hq => ?regs, fun _ => rfl, rfl⟩
    case collides =>
      rw [State.getV_setVF, if_pos rfl, flagByte_eq_one_iff]
      exact (drawSprite_collision s x y hn).2 hset
    case clear =>
      rw [State.getV_setVF, if_pos rfl, flagByte_eq_zero_iff, ← Bool.not_eq_true, drawSprite_collision s x y hn]
      exact hunset
    case regs =>
      rw [State.getV_setVF, if_neg (List.ne_of_not_mem_cons hq)]
      rfl
  · exact fun h0 hout => exec_raised (if_pos ⟨h0, hout⟩)

/-! ## The edge policies -/

/-- `s` on a machine of the same font with the edge policy `edge` (R7). -/
def State.withEdge (s : State) (edge : DrawEdge) : State := { s with cfg := { s.cfg with drawEdge := edge } }

/-- Memory reads alike under both policies: only the font stands behind it. -/
theorem State.readByte_withEdge (s : State) (edge : DrawEdge) (a : Nat) :
    (s.withEdge edge).readByte a = s.readByte a := by
  change Memory.read { s.cfg with drawEdge := edge } s.mem a = Memory.read s.cfg s.mem a
  induction s.mem with
  | nil => rfl
  | cons e m ih => simp only [Memory.read, ih]

/-- A pixel that lands inside the axis without wrapping lands there under every policy (R174). -/
theorem landsOn_of_lt {size p k : Nat} (h : p + k < size) : landsOn edge size p k = p + k := by
  cases edge with
  | wrap => exact Nat.mod_eq_of_lt h
  | clip => rfl

/-- Inside the grid the sprite covers the same cells under every policy. -/
theorem spriteCovers_withEdge (hx : (s.getV x).toNat % 64 ≤ 56) (hy : (s.getV y).toNat % 32 + n ≤ 32) (r : Fin 32)
    (c : Fin 64) : SpriteCovers (s.withEdge edge) x y n r c ↔
      ∃ k j : Nat, k < n ∧ j < 8 ∧ (s.readByte (s.i.toNat + k)).getLsbD (7 - j) = true ∧
        (s.getV x).toNat % 64 + j = c.val ∧ (s.getV y).toNat % 32 + k = r.val := by
  refine exists₂_congr fun k j => and_congr_right fun hk => and_congr_right fun hj => ?_
  have hcolumn : (s.getV x).toNat % 64 + j < 64 := by omega
  have hrow : (s.getV y).toNat % 32 + k < 32 := by omega
  rw [State.readByte_withEdge, ← landsOn_of_lt (edge := edge) hcolumn, ← landsOn_of_lt (edge := edge) hrow]
  rfl

/-- What a draw starts from and the cells it toggles determine what it ends in. -/
theorem TogglesCells.unique (h : TogglesCells P d d') (h' : TogglesCells P d d'') : d' = d'' := by
  have hfb : d'.fb = d''.fb := by
    refine Frame.ext_cells _ _ fun r c => ?_
    by_cases hP : P r c
    · rw [h.toggled hP, h'.toggled hP]
    · rw [h.kept hP, h'.kept hP]
  have hcollision : d'.collision = d''.collision := Bool.eq_iff_iff.2 (h.collision.trans h'.collision.symm)
  cases d'
  cases d''
  cases hfb
  cases hcollision
  rfl

theorem drawSprite_withEdge (hx : (s.getV x).toNat % 64 ≤ 56) (hy : (s.getV y).toNat % 32 + n ≤ 32)
    (edge edge' : DrawEdge) : drawSprite (s.withEdge edge) x y n = drawSprite (s.withEdge edge') x y n := by
  have hsame := fun r c => (spriteCovers_withEdge (edge := edge) hx hy r c).trans
    (spriteCovers_withEdge (edge := edge') hx hy r c).symm
  have hn : n ≤ 32 := by omega
  exact ((drawSprite_toggles (s.withEdge edge) x y hn).congr hsame).unique
    (drawSprite_toggles (s.withEdge edge') x y hn)

/-- Settles O46: both policies raise alike, and where they draw they toggle the same cells. -/
theorem edgePoliciesAgreeInsideTheGrid : Obligations.EdgePoliciesAgreeInsideTheGrid := by
  intro s x y n hx hy
  cases hc : expectedFault (.drw x y n) s with
  | some c => exact ⟨raise s c, exec_raises (s := s.withEdge .wrap) hc, exec_raises (s := s.withEdge .clip) hc⟩
  | none =>
    have hclip := execDrw_completes (x := x) (y := y) (s := s.withEdge .clip) hc
    rw [drawSprite_withEdge hx hy .clip .wrap] at hclip
    exact ⟨State.setVF { s with fb := (drawSprite (s.withEdge .wrap) x y n.val).fb }
      (flagByte (drawSprite (s.withEdge .wrap) x y n.val).collision), execDrw_completes (s := s.withEdge .wrap) hc, hclip⟩

end Sys2Proof.Machine
end
